-- ==== Sys2Proof/Word.lean ====
section
/-! DEFINITION. The bit-vector types of the block: bytes, 16-bit words and the opcode's fields (spec R8, R91). -/

namespace Sys2Proof

/-- An 8-bit value: a V register, a timer, a byte of RAM (R21, R31, R60). -/
abbrev Byte := BitVec 8

/-- A 16-bit value: I, PC, a stack entry, an opcode (R24, R25, R28, R90). -/
abbrev Word := BitVec 16

/-- A 4-bit field: a register number X or Y, a row count N, a key number (R91, R21, R34). -/
abbrev Nibble := BitVec 4

/-- The 12-bit address immediate NNN (R91, R93). -/
abbrev Addr12 := BitVec 12

end Sys2Proof
end

