-- ==== Sys2Proof/Config.lean ====
section
/-! DEFINITION. The sizes the spec fixes (R8), the construction-time configuration (R9, R44) and the one free value,
the random draw (R43). -/

namespace Sys2Proof

/-- `MEM_SIZE`: addresses 0x000..0xFFF (R8, R60). -/
def memSize : Nat := 0x1000

/-- `PROG_START`: where LOAD copies a ROM and where PC starts (R8, R71, R351). -/
def progStart : Nat := 0x200

/-- `ROM_MAX` = 4096 − 512 bytes (R8, R71). -/
def romMax : Nat := memSize - progStart

/-- `QUIRK_MODE` (R45): the shift source and the index increment of the register dump and load. -/
inductive QuirkMode where
  | modern
  | legacy
deriving DecidableEq, Repr

/-- `SUB_FLAG_POLARITY` (R46): what VF = 1 means after SUB and SUBN. -/
inductive SubFlagPolarity where
  | notBorrow
  | borrow
deriving DecidableEq, Repr

/-- The construction-time configuration of R44. No instruction reads it as data or writes it (R37). -/
structure Config where
  /-- `QUIRK_MODE`, R45. -/
  quirkMode : QuirkMode
  /-- `SUB_FLAG_POLARITY`, R46. -/
  subFlagPolarity : SubFlagPolarity
  /-- `FONT_BASE`, R41: 0x000..0x1B0, checked by `Config.wellFormed`. -/
  fontBase : Word
  /-- `FONT`, R42: byte `5 * d + r` is row r of glyph d. -/
  font : Vector Byte 80
deriving DecidableEq, Repr

/-- The random draw of RND, a FREE VALUE (R43, R261): no law holds of it, so a proof that goes through is a proof for
every value of it. `Config.randomDraw k` is the k-th draw; `State.drawIndex` counts the draws taken.
DESIGN CHOICE of the form only: log 4. -/
opaque Config.randomDraw : Nat → Byte

end Sys2Proof
end

