-- ==== Sys2Proof/Syntax.lean ====
section
/-! DEFINITION. The 34 instructions of R95, one constructor per row of spec/opcode_table.json, the two ways a decoder
rejects bytes, and the host's operations of R330. -/

namespace Sys2Proof

/-- The instruction set: every row of the opcode map R95, in its order. `x` and `y` are register numbers, `n` the row
count, `nn` the byte immediate (kk), `nnn` the address immediate (R91). -/
inductive Instr where
  /-- `00E0` CLS, R230. -/
  | cls
  /-- `00EE` RET, R133. -/
  | ret
  /-- `1nnn` JP nnn, R131. -/
  | jp (nnn : Addr12)
  /-- `2nnn` CALL nnn, R132. -/
  | call (nnn : Addr12)
  /-- `3xkk` SE Vx, kk, R134. -/
  | seImm (x : Nibble) (nn : Byte)
  /-- `4xkk` SNE Vx, kk, R135. -/
  | sneImm (x : Nibble) (nn : Byte)
  /-- `5xy0` SE Vx, Vy, R136. -/
  | seReg (x y : Nibble)
  /-- `6xkk` LD Vx, kk, R161. -/
  | ldImm (x : Nibble) (nn : Byte)
  /-- `7xkk` ADD Vx, kk, R162. -/
  | addImm (x : Nibble) (nn : Byte)
  /-- `8xy0` LD Vx, Vy, R163. -/
  | ldReg (x y : Nibble)
  /-- `8xy1` OR Vx, Vy, R164. -/
  | orReg (x y : Nibble)
  /-- `8xy2` AND Vx, Vy, R165. -/
  | andReg (x y : Nibble)
  /-- `8xy3` XOR Vx, Vy, R166. -/
  | xorReg (x y : Nibble)
  /-- `8xy4` ADD Vx, Vy, R167. -/
  | addReg (x y : Nibble)
  /-- `8xy5` SUB Vx, Vy, R170. -/
  | sub (x y : Nibble)
  /-- `8xy6` SHR Vx, Vy, R175. -/
  | shr (x y : Nibble)
  /-- `8xy7` SUBN Vx, Vy, R178. -/
  | subn (x y : Nibble)
  /-- `8xyE` SHL Vx, Vy, R180. -/
  | shl (x y : Nibble)
  /-- `9xy0` SNE Vx, Vy, R137. -/
  | sneReg (x y : Nibble)
  /-- `Annn` LD I, nnn, R200. -/
  | ldI (nnn : Addr12)
  /-- `Bnnn` JP V0, nnn, R138. -/
  | jpV0 (nnn : Addr12)
  /-- `Cxkk` RND Vx, kk, R260. -/
  | rnd (x : Nibble) (nn : Byte)
  /-- `Dxyn` DRW Vx, Vy, n, R232. -/
  | drw (x y n : Nibble)
  /-- `Ex9E` SKP Vx, R270. -/
  | skp (x : Nibble)
  /-- `ExA1` SKNP Vx, R271. -/
  | sknp (x : Nibble)
  /-- `Fx07` LD Vx, DT, R290. -/
  | ldVxDt (x : Nibble)
  /-- `Fx0A` LD Vx, K, R280. -/
  | ldVxK (x : Nibble)
  /-- `Fx15` LD DT, Vx, R291. -/
  | ldDt (x : Nibble)
  /-- `Fx18` LD ST, Vx, R292. -/
  | ldSt (x : Nibble)
  /-- `Fx1E` ADD I, Vx, R201. -/
  | addI (x : Nibble)
  /-- `Fx29` LD F, Vx, R202. -/
  | ldF (x : Nibble)
  /-- `Fx33` LD B, Vx, R205. -/
  | ldB (x : Nibble)
  /-- `Fx55` LD [I], Vx, R210. -/
  | ldStore (x : Nibble)
  /-- `Fx65` LD Vx, [I], R213. -/
  | ldLoad (x : Nibble)
deriving DecidableEq, Repr

/-- Why a decoder has no instruction for some bytes. -/
inductive DecodeError where
  /-- `Unknown` of R96: the word is one of R97. -/
  | unknown (op : Word)
  /-- Fewer than the two bytes of an opcode (R90). The step's fetch never gives so few. -/
  | truncated
deriving DecidableEq, Repr

/-- The host's operations, the rows of R330. -/
inductive HostOp where
  /-- `RESET(config)`, R350. -/
  | reset (config : Config)
  /-- `LOAD(rom)`, R71. -/
  | load (rom : List Byte)
  /-- `STEP()`, R110. -/
  | step
  /-- `TICK()`, R320. -/
  | tick
  /-- `SET_KEY(k, b)`, R332. -/
  | setKey (k : Nat) (pressed : Bool)
  /-- `READ_DISPLAY()`, R333. -/
  | readDisplay
  /-- `READ_SOUND()`, R334. -/
  | readSound
  /-- `READ_STATUS()`, R330. -/
  | readStatus
deriving DecidableEq, Repr

end Sys2Proof
end

