-- ==== Sys2Proof/WellFormed.lean ====
section
/-! DEFINITION. Which instructions, configurations and host operations the spec admits. -/

namespace Sys2Proof

/-- Every term of `Instr` is an instruction of the ISA: the fields have exactly their widths (R91), no register number is
reserved and X = Y is legal in every form (R94), every N is legal (R98, R236). There is nothing left to refuse. -/
def Instr.wellFormed : Instr → Bool
  | .cls | .ret => true
  | .jp _ | .call _ | .ldI _ | .jpV0 _ => true
  | .seImm _ _ | .sneImm _ _ | .ldImm _ _ | .addImm _ _ | .rnd _ _ => true
  | .seReg _ _ | .sneReg _ _ | .ldReg _ _ | .orReg _ _ | .andReg _ _ | .xorReg _ _ => true
  | .addReg _ _ | .sub _ _ | .shr _ _ | .subn _ _ | .shl _ _ => true
  | .drw _ _ _ => true
  | .skp _ | .sknp _ | .ldVxDt _ | .ldVxK _ | .ldDt _ | .ldSt _ => true
  | .addI _ | .ldF _ | .ldB _ | .ldStore _ | .ldLoad _ => true

/-- `FONT_BASE` lies in 0x000..0x1B0, so that the font ends inside the reserved range (R41). -/
def Config.wellFormed (c : Config) : Bool := decide (c.fontBase.toNat ≤ 0x1B0)

/-- The operations the block has (R330): SET_KEY takes a key number 0..15 (R332, D28), RESET a configuration whose
FONT_BASE is in range (R41). A ROM that is too long is an operation, and answers RomTooLarge (R71). -/
def HostOp.wellFormed : HostOp → Bool
  | .reset c => c.wellFormed
  | .setKey k _ => decide (k < 16)
  | .load _ | .step | .tick | .readDisplay | .readSound | .readStatus => true

end Sys2Proof
end

