-- ==== Sys2Proof/Machine/Font.lean ====
section
/-! DEFINITION. The default configuration of R9 and its font table (R42). -/

namespace Sys2Proof

/-- The glyphs 0..7 of R42, one row of five bytes each. UNVERIFIED: the spec itself supplies them from general knowledge (K8, log 9). -/
def glyphsLow : List (List Byte) := [
  [0xF0, 0x90, 0x90, 0x90, 0xF0],
  [0x20, 0x60, 0x20, 0x20, 0x70],
  [0xF0, 0x10, 0xF0, 0x80, 0xF0],
  [0xF0, 0x10, 0xF0, 0x10, 0xF0],
  [0x90, 0x90, 0xF0, 0x10, 0x10],
  [0xF0, 0x80, 0xF0, 0x10, 0xF0],
  [0xF0, 0x80, 0xF0, 0x90, 0xF0],
  [0xF0, 0x10, 0x20, 0x40, 0x40]]

/-- The glyphs 8..F of R42. UNVERIFIED: the spec itself supplies them from general knowledge (K8, log 9). -/
def glyphsHigh : List (List Byte) := [
  [0xF0, 0x90, 0xF0, 0x90, 0xF0],
  [0xF0, 0x90, 0xF0, 0x10, 0xF0],
  [0xF0, 0x90, 0xF0, 0x90, 0x90],
  [0xE0, 0x90, 0xE0, 0x90, 0xE0],
  [0xF0, 0x80, 0x80, 0x80, 0xF0],
  [0xE0, 0x90, 0x90, 0x90, 0xE0],
  [0xF0, 0x80, 0xF0, 0x80, 0xF0],
  [0xF0, 0x80, 0xF0, 0x80, 0x80]]

/-- The default `FONT` of R42. -/
def defaultFont : Vector Byte 80 := ⟨(glyphsLow ++ glyphsHigh).flatten.toArray, rfl⟩

/-- The default configuration of R9: modern, not_borrow, FONT_BASE = 0x000, the table of R42. -/
def Config.default : Config where
  quirkMode := .modern
  subFlagPolarity := .notBorrow
  fontBase := 0x000
  font := defaultFont

end Sys2Proof
end

