-- ==== Sys2Proof/Machine/State.lean ====
section
/-! DEFINITION. The errors of R300, the state of R20, its reset values (R47), and the reasons a step can stop. -/

namespace Sys2Proof.Machine

/-- The five errors of R300 with the info each records. An error does not stop the model: it is recorded in
`State.fault` (R306) or answered to the host (R72, R307). -/
inductive VmError where
  /-- Code 1, raised by LOAD: the ROM's length (R71). -/
  | romTooLarge (length : Nat)
  /-- Code 2, raised by a step whose word is Unknown: the word (R301). -/
  | unknownOpcode (op : Word)
  /-- Code 3, raised by CALL with SP = 16 (R132). -/
  | stackOverflow
  /-- Code 4, raised by RET with SP = 0 (R133). -/
  | stackUnderflow
  /-- Code 5, raised by fetch, DRW, LD B, LD [I] and LD Vx,[I]: the lowest out-of-range address (R63). -/
  | memoryAccessOutOfBounds (address : Nat)
deriving DecidableEq, Repr

/-- The framebuffer, row y then column x (R33). -/
abbrev Display := Vector (Vector Bool 64) 32

/-- The architectural state of one block: the tuple of R20, the configuration of R44, and the model's own counter of
random draws. -/
structure State where
  /-- V0..VF (R21). -/
  v : Vector Byte 16
  /-- The index register I (R24). -/
  i : Word
  /-- The program counter (R25). -/
  pc : Word
  /-- The stack depth, 0..16 (R28). An 8-bit register whose legal values are these: log 6. -/
  sp : Fin 17
  /-- The return addresses (R28). Entry k is in use when k < SP. -/
  stack : Vector Word 16
  /-- The delay timer (R31). -/
  dt : Byte
  /-- The sound timer (R31). -/
  st : Byte
  /-- RAM (R60): the bytes that differ from the reset contents, addresses strictly rising (log 5). -/
  mem : List Host.Cell
  /-- The framebuffer (R33). -/
  disp : Display
  /-- The keypad, true = pressed (R34). -/
  key : Vector Bool 16
  /-- AwaitingKey (R35). -/
  awaitingKey : Bool
  /-- The sticky error status Fault (R36). -/
  fault : Option VmError
  /-- The construction-time configuration (R44), constant for the life of the block (log 3). -/
  config : Config
  /-- THE MODEL'S OWN: how many random draws were taken, the argument of `Config.randomDraw` (R43, log 4). -/
  drawIndex : Nat
deriving DecidableEq, Repr

/-- What stops a step with a fault: nothing does. Every error of R300 is a next state with `State.fault` set (R305, R306),
so this type has no constructor. Safe: log 1. -/
inductive Fault where
deriving DecidableEq, Repr

/-- What the model refuses. -/
inductive Refusal where
  /-- An instruction without a meaning, raised only by an arm of exec; no arm raises it now. Safe. -/
  | notModelled (mnemonic : String)
  /-- SET_KEY with a key number above 15, raised by `perform`: "not an operation of the block" (R332, D28). Safe. -/
  | keyNumberOutOfRange (k : Nat)
  /-- RESET with FONT_BASE above 0x1B0, raised by `perform`: outside the parameter's range (R41). Safe: log 12. -/
  | configOutOfRange
deriving DecidableEq, Repr

/-- The state `RESET(config)` leaves (R47, R350). -/
def State.resetWith (config : Config) : State where
  v := Vector.replicate 16 0
  i := 0
  pc := 0x200
  sp := 0
  stack := Vector.replicate 16 0
  dt := 0
  st := 0
  mem := []
  disp := Vector.replicate 32 (Vector.replicate 64 false)
  key := Vector.replicate 16 false
  awaitingKey := false
  fault := none
  config := config
  drawIndex := 0

/-- The machine right after reset, in the default configuration of R9. -/
def State.reset : State := State.resetWith Config.default

end Sys2Proof.Machine
end

