-- ==== Sys2Proof/Machine/Flags.lean ====
section
/-! DEFINITION. The values VF takes: every flag computation of the spec, from the operand values read at the start of
the instruction (R22, R160). -/

namespace Sys2Proof.Machine

/-- `bool(c)` as a byte (R12). -/
def boolByte (c : Bool) : Byte := if c then 1 else 0

/-- The flag of ADD Vx, Vy: unsigned overflow (R167). -/
def addFlag (a b : Byte) : Byte := boolByte (decide (255 < a.toNat + b.toNat))

/-- The flag of `a - b` in SUB and SUBN, by `SUB_FLAG_POLARITY` (R46, R170, R178). -/
def subFlag (polarity : SubFlagPolarity) (a b : Byte) : Byte :=
  match polarity with
  | .notBorrow => boolByte (decide (b.toNat ≤ a.toNat))
  | .borrow => boolByte (decide (a.toNat < b.toNat))

/-- The bit SHR shifts out: bit 0 (R175). -/
def shrFlag (src : Byte) : Byte := src &&& 1

/-- The bit SHL shifts out: bit 7 (R180). -/
def shlFlag (src : Byte) : Byte := src >>> 7

/-- The flag of DRW: collision (R232, R234). -/
def collisionFlag (collision : Bool) : Byte := boolByte collision

end Sys2Proof.Machine
end

