-- ==== Sys2Proof/Machine/Ops.lean ====
section
/-! DEFINITION. The named operations the meanings share: registers, RAM and its bounds check, fetch, the stack, the
framebuffer, the keypad, the timers, and raising an error. -/

namespace Sys2Proof.Machine

/-! ## Registers -/

/-- `V[x]` (R12). -/
def State.getV (s : State) (x : Nibble) : Byte := s.v[x.toNat]'x.isLt

/-- `V[x] <- b` (R12). -/
def State.setV (s : State) (x : Nibble) (b : Byte) : State := { s with v := s.v.set x.toNat b x.isLt }

/-- `I <- w`. -/
def State.setI (s : State) (w : Word) : State := { s with i := w }

/-- `PC <- w`. -/
def State.setPc (s : State) (w : Word) : State := { s with pc := w }

/-- `DT <- b`. -/
def State.setDt (s : State) (b : Byte) : State := { s with dt := b }

/-- `ST <- b`. -/
def State.setSt (s : State) (b : Byte) : State := { s with st := b }

/-- `AwaitingKey <- b`. -/
def State.setAwaitingKey (s : State) (b : Bool) : State := { s with awaitingKey := b }

/-- The result of a flag-writing instruction: the result register first, then VF, so that the flag is what VF keeps when
X = F (R22, R160). -/
def State.setVThenFlag (s : State) (x : Nibble) (result flag : Byte) : State := (s.setV x result).setV 0xF flag

/-- The PC advance after a fetch: `PC <- PC + 2` (R113). -/
def State.advance (s : State) : State := s.setPc (s.pc + 2)

/-- `Skip(c)` of R130, on the already advanced PC. -/
def State.skip (s : State) (c : Bool) : State := s.setPc (if c then s.pc + 2 else s.pc)

/-- The next random draw, a fresh free byte (R43). -/
def State.draw (s : State) : Byte := Config.randomDraw s.drawIndex

/-- One draw has been taken. -/
def State.countDraw (s : State) : State := { s with drawIndex := s.drawIndex + 1 }

/-! ## Errors -/

/-- Taking an error (R305, R306): Fault records it and nothing else changes. `s` is the state before the step, so the PC
advance and every other write of the step are dropped. -/
def State.raise (s : State) (e : VmError) : State := { s with fault := some e }

/-- The execute phase and its commit (R110, R113, R305): `body` runs on the state with the PC advanced; what it answers is
kept, or its error is raised on the state before the step. -/
def complete (s : State) (body : State → Except VmError State) : Host.Outcome State Fault Refusal :=
  match body s.advance with
  | .ok t => .next t
  | .error e => .next (s.raise e)

/-! ## RAM

RAM is a list of the bytes that differ from the reset contents (log 5). -/

/-- What an address nobody has written reads as: the reset contents of RAM, the font bytes at FONT_BASE and 0x00
everywhere else (R47, R41). -/
def resetByte (c : Config) (a : Nat) : Byte :=
  if h : c.fontBase.toNat ≤ a ∧ a - c.fontBase.toNat < 80 then c.font[a - c.fontBase.toNat]'h.2 else 0

/-- The byte at an address of a listed memory whose unlisted addresses read as `dflt`. -/
def Memory.read (dflt : Nat → Byte) : List Host.Cell → Nat → Byte
  | [], a => dflt a
  | (b, w) :: rest, a => if b = a then w else Memory.read dflt rest a

/-- Put a cell where its address belongs among rising addresses. -/
def Memory.insertCell (a : Nat) (v : Byte) : List Host.Cell → List Host.Cell
  | [] => [(a, v)]
  | (b, w) :: rest => if a < b then (a, v) :: (b, w) :: rest else (b, w) :: Memory.insertCell a v rest

/-- The memory without the cells of an address. -/
def Memory.eraseCell (a : Nat) : List Host.Cell → List Host.Cell
  | [] => []
  | (b, w) :: rest => if b = a then Memory.eraseCell a rest else (b, w) :: Memory.eraseCell a rest

/-- Write one byte, keeping the canonical form: a byte equal to what the unlisted address reads as is not listed. -/
def Memory.write (dflt : Nat → Byte) (m : List Host.Cell) (a : Nat) (v : Byte) : List Host.Cell :=
  if v = dflt a then Memory.eraseCell a m else Memory.insertCell a v (Memory.eraseCell a m)

/-- The canonical form: addresses strictly rising and inside RAM, no entry equal to what its address reads as
unlisted. -/
abbrev Memory.wf (dflt : Nat → Byte) (m : List Host.Cell) : Prop :=
  m.Pairwise (fun p q => p.1 < q.1) ∧ ∀ p ∈ m, p.1 < memSize ∧ p.2 ≠ dflt p.1

/-- `MemRead(a, 1)` (R12). -/
def State.readByte (s : State) (a : Nat) : Byte := Memory.read (resetByte s.config) s.mem a

/-- `MemWrite(a, 1, v)` (R12). -/
def State.writeByte (s : State) (a : Nat) (v : Byte) : State :=
  { s with mem := Memory.write (resetByte s.config) s.mem a v }

/-- The bytes at `base`, `base + 1`, ..., `n` of them (R67). -/
def State.readBytes (s : State) (base n : Nat) : List Byte := (List.range n).map fun k => s.readByte (base + k)

/-- Write bytes at ascending addresses from `base` (R67). -/
def State.writeBytes (s : State) (base : Nat) : List Byte → State
  | [] => s
  | b :: rest => (s.writeByte base b).writeBytes (base + 1) rest

/-- `CheckAddr(a)` of R62, on an exact address. -/
def checkAddr (a : Nat) : Except VmError Unit :=
  if 0xFFF < a then .error (.memoryAccessOutOfBounds a) else .ok ()

/-- `CheckAddr` on every byte of an access, ascending, before any of them is touched: the lowest out-of-range address is
the one reported (R63). -/
def checkRange (base : Nat) : Nat → Except VmError Unit
  | 0 => .ok ()
  | n + 1 =>
    match checkAddr base with
    | .error e => .error e
    | .ok () => checkRange (base + 1) n

/-- The fetch of R110, R112: check both bytes, then read the big-endian opcode (R66). -/
def State.fetch (s : State) : Except VmError Word :=
  match checkRange s.pc.toNat 2 with
  | .error e => .error e
  | .ok () => .ok (wordOfBytes (s.readByte s.pc.toNat) (s.readByte (s.pc.toNat + 1)))

/-! ## The stack -/

/-- `Stack[SP] <- v ; SP <- SP + 1`, or StackOverflow when SP = 16 (R29). -/
def State.push (s : State) (v : Word) : Except VmError State :=
  if h : s.sp.val < 16 then
    .ok { s with stack := s.stack.set s.sp.val v h, sp := ⟨s.sp.val + 1, by omega⟩ }
  else .error .stackOverflow

/-- `SP <- SP - 1 ; return Stack[SP]`, or StackUnderflow when SP = 0 (R29). -/
def State.pop (s : State) : Except VmError (Word × State) :=
  if h : 0 < s.sp.val then
    .ok (s.stack[s.sp.val - 1]'(by omega), { s with sp := ⟨s.sp.val - 1, by omega⟩ })
  else .error .stackUnderflow

/-! ## The framebuffer -/

/-- `Disp[y][x]` (R33). -/
def Display.pixel (d : Display) (x : Fin 64) (y : Fin 32) : Bool := d[y.val][x.val]

/-- `Disp[y][x] <- Disp[y][x] ^ 1`. -/
def Display.flip (d : Display) (x : Fin 64) (y : Fin 32) : Display :=
  d.set y.val (d[y.val].set x.val (!d[y.val][x.val]))

/-- All pixels 0 (R230). -/
def Display.clear : Display := Vector.replicate 32 (Vector.replicate 64 false)

/-- A framebuffer being drawn to and whether a set pixel has been unset so far: the two variables of R232's loop. -/
abbrev Drawing := Display × Bool

/-- The body of R232's inner loop for a set sprite bit: the coordinates wrap, a set pixel is a collision, the pixel is
inverted. -/
def Drawing.plot (g : Drawing) (x y : Nat) : Drawing :=
  let px : Fin 64 := ⟨x % 64, Nat.mod_lt x (by decide)⟩
  let py : Fin 32 := ⟨y % 32, Nat.mod_lt y (by decide)⟩
  (g.1.flip px py, g.2 || g.1.pixel px py)

/-- One sprite row: bit `7 - c` of the byte is column c (R233). -/
def Drawing.row (g : Drawing) (b : Byte) (x0 y : Nat) : Drawing :=
  (List.range 8).foldl (fun g c => if b.getLsbD (7 - c) then g.plot (x0 + c) y else g) g

/-- The outer loop of R232: the sprite's rows downwards from `y0`. -/
def Drawing.rows (g : Drawing) (x0 y0 : Nat) : List Byte → Drawing
  | [] => g
  | b :: rest => (g.row b x0 y0).rows x0 (y0 + 1) rest

/-- The framebuffer replaced. -/
def State.setDisp (s : State) (d : Display) : State := { s with disp := d }

/-! ## The keypad -/

/-- `Key[k]` (R12, R34). -/
def State.getKey (s : State) (k : Nibble) : Bool := s.key[k.toNat]'k.isLt

/-- `Key[k] <- b`, the host's write (R332). -/
def State.setKey (s : State) (k : Nibble) (b : Bool) : State := { s with key := s.key.set k.toNat b k.isLt }

/-- The key numbers 0x0..0xF, ascending. -/
def keyNumbers : List Nibble := (List.range 16).map (BitVec.ofNat 4)

/-- `min { k | Key[k] = 1 }`, if any key is pressed (R280). -/
def State.lowestPressedKey (s : State) : Option Nibble := keyNumbers.find? s.getKey

end Sys2Proof.Machine
end

