-- ==== Sys2Proof/Machine/Operands.lean ====
section
/-! DEFINITION. The operand forms: immediates, register operands, the index address, the key and digit of a register,
the source of a shift, the register range of a dump or load (R93, R94, R216). -/

namespace Sys2Proof.Machine

/-- `zext_16(NNN)` (R93). -/
def addrImm (nnn : Addr12) : Word := nnn.setWidth 16

/-- `zext_16(V[x])` (R138, R201). -/
def wideV (s : State) (x : Nibble) : Word := (s.getV x).setWidth 16

/-- The effective address of byte k of an access: `I + k`, exact (R216). -/
def indexAddr (s : State) (k : Nat) : Nat := s.i.toNat + k

/-- The low nibble of `V[x]`: the key number of SKP and SKNP (R272) and the digit of LD F (R202). -/
def lowNibble (s : State) (x : Nibble) : Nibble := (s.getV x).extractLsb' 0 4

/-- `FONT_BASE + 5 * d`, where glyph d starts (R41, R202). -/
def glyphAddr (c : Config) (d : Nibble) : Word := c.fontBase + 5 * d.setWidth 16

/-- The operand of SHR and SHL: VX when modern, VY when legacy (R45, R175, R180). -/
def shiftSource (s : State) (x y : Nibble) : Byte :=
  match s.config.quirkMode with
  | .modern => s.getV x
  | .legacy => s.getV y

/-- The values of V0..Vx, in order (R210). -/
def dumpedBytes (s : State) (x : Nibble) : List Byte := s.v.toList.take (x.toNat + 1)

/-- V0..Vx taken from bytes, the registers above Vx kept (R213). -/
def loadedRegs (s : State) (x : Nibble) : Vector Byte 16 :=
  Vector.ofFn fun k : Fin 16 => if k.val ≤ x.toNat then s.readByte (indexAddr s k.val) else s.v[k.val]

/-- I after LD [I], Vx and LD Vx, [I]: unchanged when modern, `I + X + 1` modulo 65536 when legacy (R45, R210, R213). -/
def indexAfter (s : State) (x : Nibble) : Word :=
  match s.config.quirkMode with
  | .modern => s.i
  | .legacy => s.i + x.setWidth 16 + 1

/-- The decimal digits of a byte: hundreds, tens, ones (R205). -/
def bcdDigits (v : Byte) : List Byte :=
  [BitVec.ofNat 8 (v.toNat / 100), BitVec.ofNat 8 (v.toNat / 10 % 10), BitVec.ofNat 8 (v.toNat % 10)]

end Sys2Proof.Machine
end

