-- ==== Sys2Proof/Machine/Alu.lean ====
section
/-! DEFINITION. Arithmetic and logic: 41_arith_logic.md R160–R185. Eight-bit unsigned, results modulo 256. -/

namespace Sys2Proof.Machine

/-- LD Vx, kk: `V[X] <- NN` (R161). -/
def execLdImm (x : Nibble) (nn : Byte) (s : State) : Host.Outcome State Fault Refusal :=
  complete s fun t => .ok (t.setV x nn)

/-- ADD Vx, kk: `V[X] <- (V[X] + NN) mod 256`, no flag (R162). -/
def execAddImm (x : Nibble) (nn : Byte) (s : State) : Host.Outcome State Fault Refusal :=
  complete s fun t => .ok (t.setV x (t.getV x + nn))

/-- LD Vx, Vy: `V[X] <- V[Y]` (R163). -/
def execLdReg (x y : Nibble) (s : State) : Host.Outcome State Fault Refusal :=
  complete s fun t => .ok (t.setV x (t.getV y))

/-- OR Vx, Vy: VF is not written as a flag (R164). -/
def execOr (x y : Nibble) (s : State) : Host.Outcome State Fault Refusal :=
  complete s fun t => .ok (t.setV x (t.getV x ||| t.getV y))

/-- AND Vx, Vy: VF is not written as a flag (R165). -/
def execAnd (x y : Nibble) (s : State) : Host.Outcome State Fault Refusal :=
  complete s fun t => .ok (t.setV x (t.getV x &&& t.getV y))

/-- XOR Vx, Vy: VF is not written as a flag (R166). -/
def execXor (x y : Nibble) (s : State) : Host.Outcome State Fault Refusal :=
  complete s fun t => .ok (t.setV x (t.getV x ^^^ t.getV y))

/-- ADD Vx, Vy: VF is the carry (R167). -/
def execAddReg (x y : Nibble) (s : State) : Host.Outcome State Fault Refusal :=
  complete s fun t => .ok (t.setVThenFlag x (t.getV x + t.getV y) (addFlag (t.getV x) (t.getV y)))

/-- SUB Vx, Vy: `V[X] <- (a - b) mod 256` with a = V[X], b = V[Y] (R170). -/
def execSub (x y : Nibble) (s : State) : Host.Outcome State Fault Refusal :=
  complete s fun t =>
    .ok (t.setVThenFlag x (t.getV x - t.getV y) (subFlag t.config.subFlagPolarity (t.getV x) (t.getV y)))

/-- SHR Vx, Vy: VF is the bit shifted out (R175). -/
def execShr (x y : Nibble) (s : State) : Host.Outcome State Fault Refusal :=
  complete s fun t => .ok (t.setVThenFlag x (shiftSource t x y >>> 1) (shrFlag (shiftSource t x y)))

/-- SUBN Vx, Vy: `V[X] <- (b - a) mod 256` with a = V[X], b = V[Y] (R178). -/
def execSubn (x y : Nibble) (s : State) : Host.Outcome State Fault Refusal :=
  complete s fun t =>
    .ok (t.setVThenFlag x (t.getV y - t.getV x) (subFlag t.config.subFlagPolarity (t.getV y) (t.getV x)))

/-- SHL Vx, Vy: VF is the bit shifted out (R180). -/
def execShl (x y : Nibble) (s : State) : Host.Outcome State Fault Refusal :=
  complete s fun t => .ok (t.setVThenFlag x (shiftSource t x y <<< 1) (shlFlag (shiftSource t x y)))

end Sys2Proof.Machine
end

