-- ==== Sys2Proof/Machine/Blit.lean ====
section
/-! DEFINITION. Display: 43_display.md R230–R237. -/

namespace Sys2Proof.Machine

/-- CLS: every pixel 0, VF not written (R230). -/
def execCls (s : State) : Host.Outcome State Fault Refusal :=
  complete s fun t => .ok (t.setDisp Display.clear)

/-- DRW Vx, Vy, n: XOR the n bytes at I onto the framebuffer at (V[X], V[Y]), VF the collision; the coordinates are read
before VF is written, and n = 0 checks and draws nothing (R232, R236). -/
def execDrw (x y n : Nibble) (s : State) : Host.Outcome State Fault Refusal :=
  complete s fun t =>
    match checkRange (indexAddr t 0) n.toNat with
    | .error e => .error e
    | .ok () =>
      let g : Drawing :=
        Drawing.rows (t.disp, false) (t.getV x).toNat (t.getV y).toNat (t.readBytes (indexAddr t 0) n.toNat)
      .ok ((t.setDisp g.1).setV 0xF (collisionFlag g.2))

end Sys2Proof.Machine
end

