-- ==== Sys2Proof/Machine/Flow.lean ====
section
/-! DEFINITION. Flow control: 40_flow_control.md R130–R138. -/

namespace Sys2Proof.Machine

/-- JP nnn: `PC <- zext_16(NNN)` (R131). -/
def execJp (nnn : Addr12) (s : State) : Host.Outcome State Fault Refusal :=
  complete s fun t => .ok (t.setPc (addrImm nnn))

/-- CALL nnn: push the advanced PC, then jump (R132). -/
def execCall (nnn : Addr12) (s : State) : Host.Outcome State Fault Refusal :=
  complete s fun t =>
    match t.push t.pc with
    | .ok u => .ok (u.setPc (addrImm nnn))
    | .error e => .error e

/-- RET: `PC <- Pop()` (R133). -/
def execRet (s : State) : Host.Outcome State Fault Refusal :=
  complete s fun t =>
    match t.pop with
    | .ok (w, u) => .ok (u.setPc w)
    | .error e => .error e

/-- SE Vx, kk: `Skip(V[X] = NN)` (R134). -/
def execSeImm (x : Nibble) (nn : Byte) (s : State) : Host.Outcome State Fault Refusal :=
  complete s fun t => .ok (t.skip (decide (t.getV x = nn)))

/-- SNE Vx, kk: `Skip(V[X] ≠ NN)` (R135). -/
def execSneImm (x : Nibble) (nn : Byte) (s : State) : Host.Outcome State Fault Refusal :=
  complete s fun t => .ok (t.skip (decide (t.getV x ≠ nn)))

/-- SE Vx, Vy: `Skip(V[X] = V[Y])` (R136). -/
def execSeReg (x y : Nibble) (s : State) : Host.Outcome State Fault Refusal :=
  complete s fun t => .ok (t.skip (decide (t.getV x = t.getV y)))

/-- SNE Vx, Vy: `Skip(V[X] ≠ V[Y])` (R137). -/
def execSneReg (x y : Nibble) (s : State) : Host.Outcome State Fault Refusal :=
  complete s fun t => .ok (t.skip (decide (t.getV x ≠ t.getV y)))

/-- JP V0, nnn: `PC <- zext_16(NNN) + zext_16(V[0])` (R138). -/
def execJpV0 (nnn : Addr12) (s : State) : Host.Outcome State Fault Refusal :=
  complete s fun t => .ok (t.setPc (addrImm nnn + wideV t 0))

end Sys2Proof.Machine
end

