-- ==== Sys2Proof/Machine/Index.lean ====
section
/-! DEFINITION. Memory and index: 42_memory_index.md R200–R216. Every byte of an access is checked before any is read or
written (R63). -/

namespace Sys2Proof.Machine

/-- LD I, nnn: `I <- zext_16(NNN)` (R200). -/
def execLdI (nnn : Addr12) (s : State) : Host.Outcome State Fault Refusal :=
  complete s fun t => .ok (t.setI (addrImm nnn))

/-- ADD I, Vx: `I <- (I + V[X]) mod 65536`, no flag, no check (R201). -/
def execAddI (x : Nibble) (s : State) : Host.Outcome State Fault Refusal :=
  complete s fun t => .ok (t.setI (t.i + wideV t x))

/-- LD F, Vx: `I <- FONT_BASE + 5 * (V[X] & 0xF)` (R202). -/
def execLdF (x : Nibble) (s : State) : Host.Outcome State Fault Refusal :=
  complete s fun t => .ok (t.setI (glyphAddr t.config (lowNibble t x)))

/-- LD B, Vx: hundreds, tens and ones of V[X] at I, I + 1, I + 2 (R205). -/
def execLdB (x : Nibble) (s : State) : Host.Outcome State Fault Refusal :=
  complete s fun t =>
    match checkRange (indexAddr t 0) 3 with
    | .error e => .error e
    | .ok () => .ok (t.writeBytes (indexAddr t 0) (bcdDigits (t.getV x)))

/-- LD [I], Vx: V0..VX at I..I + X; I moves in legacy mode only (R210). -/
def execLdStore (x : Nibble) (s : State) : Host.Outcome State Fault Refusal :=
  complete s fun t =>
    match checkRange (indexAddr t 0) (x.toNat + 1) with
    | .error e => .error e
    | .ok () => .ok ((t.writeBytes (indexAddr t 0) (dumpedBytes t x)).setI (indexAfter t x))

/-- LD Vx, [I]: V0..VX from I..I + X; I moves in legacy mode only (R213). -/
def execLdLoad (x : Nibble) (s : State) : Host.Outcome State Fault Refusal :=
  complete s fun t =>
    match checkRange (indexAddr t 0) (x.toNat + 1) with
    | .error e => .error e
    | .ok () => .ok ({ t with v := loadedRegs t x }.setI (indexAfter t x))

end Sys2Proof.Machine
end

