-- ==== Sys2Proof/Machine/Input.lean ====
section
/-! DEFINITION. Keypad input: 45_input.md R270–R281. -/

namespace Sys2Proof.Machine

/-- SKP Vx: `Skip(Key[V[X] & 0xF] = 1)` (R270, R272). -/
def execSkp (x : Nibble) (s : State) : Host.Outcome State Fault Refusal :=
  complete s fun t => .ok (t.skip (t.getKey (lowNibble t x)))

/-- SKNP Vx: `Skip(Key[V[X] & 0xF] = 0)` (R271, R272). -/
def execSknp (x : Nibble) (s : State) : Host.Outcome State Fault Refusal :=
  complete s fun t => .ok (t.skip (!t.getKey (lowNibble t x)))

/-- LD Vx, K: the lowest pressed key into VX, or undo the PC advance and wait (R280). -/
def execLdVxK (x : Nibble) (s : State) : Host.Outcome State Fault Refusal :=
  complete s fun t =>
    match t.lowestPressedKey with
    | some k => .ok ((t.setV x (k.setWidth 8)).setAwaitingKey false)
    | none => .ok ((t.setPc (t.pc - 2)).setAwaitingKey true)

end Sys2Proof.Machine
end

