-- ==== Sys2Proof/Machine/Random.lean ====
section
/-! DEFINITION. Random: 44_random.md R260, R261. -/

namespace Sys2Proof.Machine

/-- RND Vx, kk: `V[X] <- r & NN`, r a fresh free byte (R260). -/
def execRnd (x : Nibble) (nn : Byte) (s : State) : Host.Outcome State Fault Refusal :=
  complete s fun t => .ok (t.countDraw.setV x (t.draw &&& nn))

end Sys2Proof.Machine
end

