-- ==== Sys2Proof/Machine/Timers.lean ====
section
/-! DEFINITION. Timer instructions, 46_timers.md R290–R292, and the countdown unit of R320. -/

namespace Sys2Proof.Machine

/-- LD Vx, DT: `V[X] <- DT` (R290). -/
def execLdVxDt (x : Nibble) (s : State) : Host.Outcome State Fault Refusal :=
  complete s fun t => .ok (t.setV x t.dt)

/-- LD DT, Vx: `DT <- V[X]` (R291). -/
def execLdDt (x : Nibble) (s : State) : Host.Outcome State Fault Refusal :=
  complete s fun t => .ok (t.setDt (t.getV x))

/-- LD ST, Vx: `ST <- V[X]` (R292). -/
def execLdSt (x : Nibble) (s : State) : Host.Outcome State Fault Refusal :=
  complete s fun t => .ok (t.setSt (t.getV x))

/-- One timer's countdown: minus one while above zero (R320). -/
def countDown (b : Byte) : Byte := if 0 < b.toNat then b - 1 else b

/-- `TICK()`: both timers count down, nothing else changes (R320). -/
def State.tick (s : State) : State := { s with dt := countDown s.dt, st := countDown s.st }

end Sys2Proof.Machine
end

