-- ==== Sys2Proof/Machine/Step.lean ====
section
/-! DEFINITION. STEP (R110), and placing a word where the next step fetches. -/

namespace Sys2Proof.Machine

/-- `STEP()` of R110. The order of its checks is R308: a recorded fault (R111), the fetch bounds (R112), the decode
(R114), then the instruction's own check. -/
def step (s : State) : Host.Outcome State Fault Refusal :=
  match s.fault with
  | some _ => .next s
  | none =>
    match s.fetch with
    | .error e => .next (s.raise e)
    | .ok op =>
      match decode op with
      | .error _ => .next (s.raise (.unknownOpcode op))
      | .ok i => exec i s

/-- `s` with an instruction word where the next step fetches it, big-endian at PC and PC + 1 (R66). A recorded Fault is
cleared and an unfetchable PC put at 0x200, since neither lets a step fetch; nothing else changes. The host's stand-in for
LOAD (log 8). -/
def State.withFetchWord (s : State) (nbits w : Nat) : State :=
  let word : Word := BitVec.ofNat 16 (w % 2 ^ nbits)
  let t : State := { s with fault := none, pc := if s.pc.toNat ≤ 0xFFE then s.pc else 0x200 }
  t.writeBytes t.pc.toNat [highByte word, lowByte word]

end Sys2Proof.Machine
end

