-- ==== Sys2Proof/Machine/Ports.lean ====
section
/-! DEFINITION. The host's operations (R330): what each returns and what each writes. -/

namespace Sys2Proof.Machine

/-- The code on the error port (R300, R331); code 0 is ok. -/
def errorCode : Option VmError → Nat
  | none => 0
  | some (.romTooLarge _) => 1
  | some (.unknownOpcode _) => 2
  | some .stackOverflow => 3
  | some .stackUnderflow => 4
  | some (.memoryAccessOutOfBounds _) => 5

/-- What an operation returns to the host (the column "block returns" of R330). -/
inductive Reply where
  /-- RESET, TICK, SET_KEY. -/
  | nothing
  /-- LOAD and STEP: ok, or the error (R331). -/
  | result (e : Option VmError)
  /-- READ_DISPLAY: 2048 pixels, row-major (R333). -/
  | display (grid : List Bool)
  /-- READ_SOUND: bool(ST > 0) (R334). -/
  | sound (active : Bool)
  /-- READ_STATUS: AwaitingKey and Fault. -/
  | status (awaitingKey : Bool) (fault : Option VmError)
deriving DecidableEq, Repr

/-- `RESET(config)`: a new construction (R350). The random source is outside the block and goes on, so the draw counter
keeps its value (log 4). -/
def State.resetPort (s : State) (c : Config) : State := { State.resetWith c with drawIndex := s.drawIndex }

/-- `LOAD(rom)`: RomTooLarge and nothing written, or the bytes at 0x200 and nothing else (R71, R72). -/
def State.load (s : State) (rom : List Byte) : State × Option VmError :=
  if romMax < rom.length then (s, some (.romTooLarge rom.length)) else (s.writeBytes progStart rom, none)

/-- The sound output `bool(ST > 0)` (R32). -/
def State.soundActive (s : State) : Bool := decide (0 < s.st.toNat)

/-- The grid the host reads: element `y * 64 + x` is pixel (x, y) (R33, R333). -/
def State.displayGrid (s : State) : List Bool := s.disp.toList.flatMap Vector.toList

/-- One host operation (R330): the state it leaves and what it returns. An operation outside the block's domain is
refused (log 12). -/
def perform (op : HostOp) (s : State) : Host.Outcome (State × Reply) Fault Refusal :=
  match op with
  | .reset c => if c.wellFormed then .next (s.resetPort c, .nothing) else .refused .configOutOfRange
  | .load rom => .next ((s.load rom).1, .result (s.load rom).2)
  | .step =>
    match step s with
    | .next t => .next (t, .result t.fault)
    | .fault r => .fault r
    | .refused r => .refused r
  | .tick => .next (s.tick, .nothing)
  | .setKey k b =>
    if k < 16 then .next (s.setKey (BitVec.ofNat 4 k) b, .nothing) else .refused (.keyNumberOutOfRange k)
  | .readDisplay => .next (s, .display s.displayGrid)
  | .readSound => .next (s, .sound s.soundActive)
  | .readStatus => .next (s, .status s.awaitingKey s.fault)

end Sys2Proof.Machine
end

