-- ==== Sys2Proof/Safety.lean ====
section
/-! DEFINITION. The terms claims are stated in: the parts of the state and which of them a transition may touch, the
invariant of reachable states, waiting for a key, and the end of a run. -/

namespace Sys2Proof.Machine

/-- Every part of the state, down to one register, one byte of RAM, one pixel. -/
inductive Part where
  | reg (x : Nibble)
  | index
  | pc
  | sp
  | stack (k : Fin 16)
  | dt
  | st
  | byte (a : Nat)
  | pixel (x : Fin 64) (y : Fin 32)
  | key (k : Nibble)
  | awaitingKey
  | fault
  | config
  | draws
deriving DecidableEq, Repr

/-- A part holds the same in both states. A byte of RAM is compared by reading it. -/
def Part.same (s t : State) : Part → Prop
  | .reg x => t.getV x = s.getV x
  | .index => t.i = s.i
  | .pc => t.pc = s.pc
  | .sp => t.sp = s.sp
  | .stack k => t.stack[k.val] = s.stack[k.val]
  | .dt => t.dt = s.dt
  | .st => t.st = s.st
  | .byte a => t.readByte a = s.readByte a
  | .pixel x y => t.disp.pixel x y = s.disp.pixel x y
  | .key k => t.getKey k = s.getKey k
  | .awaitingKey => t.awaitingKey = s.awaitingKey
  | .fault => t.fault = s.fault
  | .config => t.config = s.config
  | .draws => t.drawIndex = s.drawIndex

/-- The frame of a transition from s to t: every part outside `may` is unchanged. -/
def SameExcept (may : Part → Prop) (s t : State) : Prop := ∀ p, ¬ may p → p.same s t

/-- An error a step can record (R300): not RomTooLarge (R72), an opcode the decoder rejects (R301), an address outside
RAM (R63). -/
def isStepError : VmError → Prop
  | .romTooLarge _ => False
  | .unknownOpcode op => ∃ e, decode op = .error e
  | .stackOverflow => True
  | .stackUnderflow => True
  | .memoryAccessOutOfBounds a => 0x1000 ≤ a

/-- The invariant of every reachable state. -/
structure State.Inv (s : State) : Prop where
  /-- PC stays at or below 0x10FE (R26). -/
  pc_bound : s.pc.toNat ≤ 0x10FE
  /-- Every return address in use is at most 0x1000 (R26, R132). -/
  return_addresses : ∀ k : Fin 16, k.val < s.sp.val → s.stack[k.val].toNat ≤ 0x1000
  /-- RAM is in canonical form. -/
  memory_wf : Memory.wf (resetByte s.config) s.mem
  /-- Fault holds only errors a step raises (R36, R72). -/
  fault_from_step : ∀ e, s.fault = some e → isStepError e
  /-- FONT_BASE is in its range (R41). -/
  config_wf : s.config.wellFormed = true

/-- What AwaitingKey says (R35): while it is set, PC is at the waiting LD Vx, K, and no error has been raised. -/
def State.WaitsAtKey (s : State) : Prop :=
  s.awaitingKey = true → s.fault = none ∧ ∃ (op : Word) (x : Nibble), s.fetch = .ok op ∧ decode op = .ok (.ldVxK x)

/-- No key is pressed. -/
def State.noKeyPressed (s : State) : Prop := ∀ k, s.getKey k = false

/-- The end of a run at an address (R361): PC there, the word there is JP to itself, no error recorded. It says nothing
of later host operations. -/
def State.AtEnd (s : State) (a : Addr12) : Prop :=
  s.fault = none ∧ s.pc = a.setWidth 16 ∧ ∃ op, s.fetch = .ok op ∧ decode op = .ok (.jp a)

end Sys2Proof.Machine
end

