-- ==== Sys2Proof/Certificates/Slice0/Obligations.lean ====
section
/-! DEFINITION. The statements for the provers. Every statement about an instruction holds in every state and for every
operand, X = F included; where an access may leave RAM, both cases are stated. `SameExcept may s t` is the frame: every
register, every byte of RAM, every pixel, key, stack entry and special register outside `may` is unchanged. -/

open Sys2Proof Sys2Proof.Machine

/-! ## Encoding -/

/-- Words written out from the patterns of R95 decode to the instructions they stand for, at least one of each family;
three words of R97 decode to Unknown. -/
def Obligations.SpecWordsDecodeAsWritten : Prop :=
  decode 0x00E0 = .ok .cls ∧ decode 0x00EE = .ok .ret ∧ decode 0x1234 = .ok (.jp 0x234) ∧
  decode 0x2ABC = .ok (.call 0xABC) ∧ decode 0x3310 = .ok (.seImm 3 0x10) ∧ decode 0x9120 = .ok (.sneReg 1 2) ∧
  decode 0x6A42 = .ok (.ldImm 0xA 0x42) ∧ decode 0x8F14 = .ok (.addReg 0xF 1) ∧ decode 0x812E = .ok (.shl 1 2) ∧
  decode 0xA200 = .ok (.ldI 0x200) ∧ decode 0xF155 = .ok (.ldStore 1) ∧ decode 0xC30F = .ok (.rnd 3 0x0F) ∧
  decode 0xD005 = .ok (.drw 0 0 5) ∧ decode 0xE59E = .ok (.skp 5) ∧ decode 0xF30A = .ok (.ldVxK 3) ∧
  decode 0xF415 = .ok (.ldDt 4) ∧ decode 0x0123 = .error (.unknown 0x0123) ∧
  decode 0x5121 = .error (.unknown 0x5121) ∧ decode 0x8128 = .error (.unknown 0x8128)

/-- Decoding the word of an instruction gives the instruction back, every operand at every value. -/
def Obligations.DecodeOfEncodeIsTheInstruction : Prop :=
  ∀ i : Instr, i.wellFormed = true → decode (encode i) = .ok i

/-- A word that decodes to an instruction is that instruction's one encoding. -/
def Obligations.EncodeOfDecodeIsTheWord : Prop :=
  ∀ (op : Word) (i : Instr), decode op = .ok i → encode i = op

/-- The words the decoder rejects are exactly those of R97, and it rejects each by its own name. -/
def Obligations.UnknownWordsAreExactlyTheReservedOnes : Prop :=
  (∀ op : Word, (∃ e, decode op = .error e) ↔
    (op.toNat < 0x1000 ∧ op ≠ 0x00E0 ∧ op ≠ 0x00EE) ∨
    (op.toNat / 0x1000 = 0x5 ∧ op.toNat % 0x10 ≠ 0) ∨
    (op.toNat / 0x1000 = 0x8 ∧ op.toNat % 0x10 ∈ [0x8, 0x9, 0xA, 0xB, 0xC, 0xD, 0xF]) ∨
    (op.toNat / 0x1000 = 0x9 ∧ op.toNat % 0x10 ≠ 0) ∨
    (op.toNat / 0x1000 = 0xE ∧ op.toNat % 0x100 ∉ [0x9E, 0xA1]) ∨
    (op.toNat / 0x1000 = 0xF ∧
      op.toNat % 0x100 ∉ [0x07, 0x0A, 0x15, 0x18, 0x1E, 0x29, 0x33, 0x55, 0x65])) ∧
  (∀ (op : Word) (e : DecodeError), decode op = .error e → e = .unknown op)

/-! ## The step -/

/-- R66 and the success path of R110: with no Fault recorded and both bytes in RAM, the step is the instruction decoded
from `(Mem[PC] << 8) | Mem[PC+1]`, run on the same state. -/
def Obligations.StepRunsTheDecodedInstruction : Prop :=
  ∀ (s : State) (i : Instr), s.fault = none → s.pc.toNat ≤ 0xFFE →
    decode (((s.readByte s.pc.toNat).setWidth 16 <<< 8) ||| (s.readByte (s.pc.toNat + 1)).setWidth 16) = .ok i →
    step s = exec i s

/-- R112: the fetch reads Mem[PC] and Mem[PC+1] when both are in RAM; otherwise the step records
MemoryAccessOutOfBounds(max(PC, 0x1000)) and changes nothing else. -/
def Obligations.FetchReadsTwoBytesOrIsRecorded : Prop :=
  ∀ s : State, s.fault = none →
    (s.pc.toNat ≤ 0xFFE →
      s.fetch = .ok (((s.readByte s.pc.toNat).setWidth 16 <<< 8) ||| (s.readByte (s.pc.toNat + 1)).setWidth 16)) ∧
    (0xFFE < s.pc.toNat →
      step s = .next { s with fault := some (.memoryAccessOutOfBounds (max s.pc.toNat 0x1000)) })

/-- R114: a fetched word the decoder rejects is recorded, whole, as UnknownOpcode, and nothing else changes. -/
def Obligations.UnknownOpcodeIsRecorded : Prop :=
  ∀ (s : State) (op : Word) (e : DecodeError), s.fault = none → s.fetch = .ok op → decode op = .error e →
    step s = .next { s with fault := some (.unknownOpcode op) }

/-- R305: an operation that returns an error leaves every element of the state as it was, the write of Fault by a STEP
excepted; LOAD does not even write Fault. -/
def Obligations.ErrorsCommitNothing : Prop :=
  (∀ (s t : State) (e : VmError), perform .step s = .next (t, .result (some e)) →
    t = { s with fault := some e }) ∧
  (∀ (s t : State) (rom : List Byte) (e : VmError), perform (.load rom) s = .next (t, .result (some e)) → t = s)

/-- R306, R111: a STEP that returns an error records it; while it is recorded a STEP returns it and changes nothing; TICK,
SET_KEY, READ_DISPLAY, READ_SOUND and LOAD act as without it and leave it; RESET clears it. -/
def Obligations.FaultIsStickyUntilReset : Prop :=
  (∀ (s t : State) (e : VmError), perform .step s = .next (t, .result (some e)) → t.fault = some e) ∧
  (∀ (s : State) (e : VmError), s.fault = some e →
    step s = .next s ∧ perform .step s = .next (s, .result (some e))) ∧
  (∀ (op : HostOp) (s t : State) (r : Reply) (f : Option VmError), perform op s = .next (t, r) →
    op ≠ .step → op ≠ .readStatus → (∀ c, op ≠ .reset c) →
    t.fault = s.fault ∧ perform op { s with fault := f } = .next ({ t with fault := f }, r)) ∧
  (∀ (s t : State) (c : Config) (r : Reply), perform (.reset c) s = .next (t, r) → t.fault = none)

/-- R304, and which instruction raises what: only CALL at depth 16, RET at depth 0, and the four instructions that
access RAM at I. -/
def Obligations.OnlyTheNamedInstructionsRaise : Prop :=
  ∀ (i : Instr) (s t : State) (e : VmError), s.fault = none → exec i s = .next t → t.fault = some e →
    ((∃ nnn, i = .call nnn) ∧ s.sp = 16 ∧ e = .stackOverflow) ∨
    (i = .ret ∧ s.sp = 0 ∧ e = .stackUnderflow) ∨
    (((∃ x y n, i = .drw x y n) ∨ (∃ x, i = .ldB x) ∨ (∃ x, i = .ldStore x) ∨ (∃ x, i = .ldLoad x)) ∧
      e = .memoryAccessOutOfBounds (max s.i.toNat 0x1000))

/-- No state stops a step: an error is a next state too (the model's reading of R305 to R307, log 1). -/
def Obligations.EveryStepAnswersNext : Prop := ∀ s : State, ∃ t, step s = .next t

/-! ## Invariants -/

/-- A block fresh from RESET meets the invariant. -/
def Obligations.InvariantHoldsAtReset : Prop :=
  State.reset.Inv ∧ ∀ c : Config, c.wellFormed = true → (State.resetWith c).Inv

/-- Every step keeps the invariant: PC at most 0x10FE and every return address in use at most 0x1000 (R26), RAM
canonical, Fault only an error a step raises (R36), FONT_BASE in range. -/
def Obligations.StepKeepsTheInvariant : Prop :=
  ∀ s t : State, s.Inv → step s = .next t → t.Inv

/-- So does every operation of the host. -/
def Obligations.HostOperationsKeepTheInvariant : Prop :=
  ∀ (op : HostOp) (s t : State) (r : Reply), s.Inv → perform op s = .next (t, r) → t.Inv

/-- R35: while AwaitingKey is set, PC holds the address of the waiting LD Vx, K. Kept by every operation but LOAD, which
may overwrite the instruction. -/
def Obligations.AwaitingKeyMeansPcAtTheWait : Prop :=
  State.reset.WaitsAtKey ∧
  ∀ (op : HostOp) (s t : State) (r : Reply), (∀ rom, op ≠ .load rom) → s.WaitsAtKey →
    perform op s = .next (t, r) → t.WaitsAtKey

/-! ## Whole-machine rules -/

/-- R237: of all instructions only CLS and DRW write the framebuffer, and only DRW reads it: any other instruction does
the same whatever the framebuffer holds. No other operation of a running block writes it. -/
def Obligations.OnlyClsAndDrwTouchTheDisplay : Prop :=
  (∀ (i : Instr) (s t : State) (d : Display), i ≠ .cls → (∀ x y n, i ≠ .drw x y n) → exec i s = .next t →
    t.disp = s.disp ∧ exec i { s with disp := d } = .next { t with disp := d }) ∧
  (∀ (s : State) (d : Display), exec .cls { s with disp := d } = exec .cls s) ∧
  (∀ (op : HostOp) (s t : State) (r : Reply), op ≠ .step → (∀ c, op ≠ .reset c) → perform op s = .next (t, r) →
    t.disp = s.disp)

/-- R215: only LD B and LD [I] write RAM; any instruction but these, LD Vx,[I] and DRW does the same whatever RAM
holds. -/
def Obligations.OnlyTheNamedInstructionsTouchRam : Prop :=
  (∀ (i : Instr) (s t : State) (a : Nat), (∀ x, i ≠ .ldB x) → (∀ x, i ≠ .ldStore x) → exec i s = .next t →
    t.readByte a = s.readByte a) ∧
  (∀ (i : Instr) (s t : State) (m : List Host.Cell), (∀ x, i ≠ .ldB x) → (∀ x, i ≠ .ldStore x) →
    (∀ x, i ≠ .ldLoad x) → (∀ x y n, i ≠ .drw x y n) → exec i s = .next t →
    exec i { s with mem := m } = .next { t with mem := m })

/-- R34: no operation but SET_KEY and a new construction writes the keypad, only SKP, SKNP and LD Vx, K read it, and
SET_KEY replaces one key's state. -/
def Obligations.OnlyTheHostWritesTheKeypad : Prop :=
  (∀ (op : HostOp) (s t : State) (r : Reply), (∀ k b, op ≠ .setKey k b) → (∀ c, op ≠ .reset c) →
    perform op s = .next (t, r) → t.key = s.key) ∧
  (∀ (i : Instr) (s t : State) (k : Vector Bool 16), (∀ x, i ≠ .skp x) → (∀ x, i ≠ .sknp x) →
    (∀ x, i ≠ .ldVxK x) → exec i s = .next t → exec i { s with key := k } = .next { t with key := k }) ∧
  (∀ (s : State) (k : Nibble) (b : Bool), ∃ t, perform (.setKey k.toNat b) s = .next (t, .nothing) ∧
    t.getKey k = b)

/-- R31: no instruction reads ST: what an instruction does is the same whatever ST holds. -/
def Obligations.SoundTimerIsNeverRead : Prop :=
  ∀ (i : Instr) (s t : State) (b : Byte), exec i s = .next t →
    exec i { s with st := b } = .next (if ∃ x, i = .ldSt x then t else { t with st := b })

/-- R30: the entries of the stack at or above SP are not observable: two blocks that differ only there answer every
operation alike and go on differing only there. -/
def Obligations.StackAboveDepthIsUnobservable : Prop :=
  ∀ (op : HostOp) (s t : State) (r : Reply) (w : Vector Word 16),
    (∀ k : Fin 16, k.val < s.sp.val → w[k.val] = s.stack[k.val]) → perform op s = .next (t, r) →
    ∃ w' : Vector Word 16, perform op { s with stack := w } = .next ({ t with stack := w' }, r) ∧
      ∀ k : Fin 16, k.val < t.sp.val → w'[k.val] = t.stack[k.val]

/-- R44: the configuration changes at RESET only, to the one RESET is given. -/
def Obligations.ConfigurationIsConstant : Prop :=
  (∀ s t : State, step s = .next t → t.config = s.config) ∧
  (∀ (op : HostOp) (s t : State) (r : Reply), perform op s = .next (t, r) →
    t.config = match op with | .reset c => c | _ => s.config)

/-- R142: an instruction that completes leaves PC at its own address plus 2, unless it is a jump, CALL, RET, a skip, or
LD Vx, K. -/
def Obligations.OnlyTheNamedInstructionsTransferControl : Prop :=
  ∀ (i : Instr) (s t : State), s.fault = none → exec i s = .next t → t.fault = none → t.pc ≠ s.pc + 2 →
    (∃ nnn, i = .jp nnn ∨ i = .call nnn ∨ i = .jpV0 nnn) ∨ i = .ret ∨
    (∃ x nn, i = .seImm x nn ∨ i = .sneImm x nn) ∨ (∃ x y, i = .seReg x y ∨ i = .sneReg x y) ∨
    (∃ x, i = .skp x ∨ i = .sknp x ∨ i = .ldVxK x)

/-- R22: VF changes only by a flag-writing instruction, by an instruction whose destination is VF, or by a load of
V0..VF. -/
def Obligations.VfChangesOnlyAsFlagOrDestination : Prop :=
  ∀ (i : Instr) (s t : State), exec i s = .next t → t.getV 0xF ≠ s.getV 0xF →
    (∃ x y, i = .addReg x y ∨ i = .sub x y ∨ i = .shr x y ∨ i = .subn x y ∨ i = .shl x y) ∨
    (∃ x y n, i = .drw x y n) ∨
    (∃ nn, i = .ldImm 0xF nn ∨ i = .addImm 0xF nn ∨ i = .rnd 0xF nn) ∨
    (∃ y, i = .ldReg 0xF y ∨ i = .orReg 0xF y ∨ i = .andReg 0xF y ∨ i = .xorReg 0xF y) ∨
    i = .ldVxDt 0xF ∨ i = .ldVxK 0xF ∨ i = .ldLoad 0xF

/-! ## Arithmetic and logic -/

/-- R161, R163: the loads of an immediate and of a register. -/
def Obligations.LoadsWriteTheirRegister : Prop :=
  ∀ (s : State) (x y : Nibble) (nn : Byte),
    (decode (0x6#4 ++ x ++ nn) = .ok (.ldImm x nn) ∧
      ∃ t, exec (.ldImm x nn) s = .next t ∧ t.getV x = nn ∧ t.pc = s.pc + 2 ∧
        SameExcept (· ∈ [.pc, .reg x]) s t) ∧
    (decode (0x8#4 ++ x ++ y ++ 0x0#4) = .ok (.ldReg x y) ∧
      ∃ t, exec (.ldReg x y) s = .next t ∧ t.getV x = s.getV y ∧ t.pc = s.pc + 2 ∧
        SameExcept (· ∈ [.pc, .reg x]) s t)

/-- R162: the immediate add wraps and writes no flag. -/
def Obligations.AddImmediateWrapsWithoutFlag : Prop :=
  ∀ (s : State) (x : Nibble) (nn : Byte),
    decode (0x7#4 ++ x ++ nn) = .ok (.addImm x nn) ∧
    ∃ t, exec (.addImm x nn) s = .next t ∧ (t.getV x).toNat = ((s.getV x).toNat + nn.toNat) % 256 ∧
      t.pc = s.pc + 2 ∧ SameExcept (· ∈ [.pc, .reg x]) s t

/-- R164, R165, R166: bitwise logic writes its destination and no flag. -/
def Obligations.LogicWritesNoFlag : Prop :=
  ∀ (s : State) (x y : Nibble),
    (decode (0x8#4 ++ x ++ y ++ 0x1#4) = .ok (.orReg x y) ∧
      ∃ t, exec (.orReg x y) s = .next t ∧ t.getV x = s.getV x ||| s.getV y ∧ t.pc = s.pc + 2 ∧
        SameExcept (· ∈ [.pc, .reg x]) s t) ∧
    (decode (0x8#4 ++ x ++ y ++ 0x2#4) = .ok (.andReg x y) ∧
      ∃ t, exec (.andReg x y) s = .next t ∧ t.getV x = s.getV x &&& s.getV y ∧ t.pc = s.pc + 2 ∧
        SameExcept (· ∈ [.pc, .reg x]) s t) ∧
    (decode (0x8#4 ++ x ++ y ++ 0x3#4) = .ok (.xorReg x y) ∧
      ∃ t, exec (.xorReg x y) s = .next t ∧ t.getV x = s.getV x ^^^ s.getV y ∧ t.pc = s.pc + 2 ∧
        SameExcept (· ∈ [.pc, .reg x]) s t)

/-- R167: the sum wraps and VF is its carry; VF is the flag when X = F. -/
def Obligations.AddWithCarryFlagsOverflow : Prop :=
  ∀ (s : State) (x y : Nibble),
    decode (0x8#4 ++ x ++ y ++ 0x4#4) = .ok (.addReg x y) ∧
    ∃ t, exec (.addReg x y) s = .next t ∧
      t.getV 0xF = (if 255 < (s.getV x).toNat + (s.getV y).toNat then 1 else 0) ∧
      (x ≠ 0xF → (t.getV x).toNat = ((s.getV x).toNat + (s.getV y).toNat) % 256) ∧
      t.pc = s.pc + 2 ∧ SameExcept (· ∈ [.pc, .reg x, .reg 0xF]) s t

/-- R170: SUB wraps, and VF is NOT borrow or borrow as SUB_FLAG_POLARITY says. -/
def Obligations.SubtractWrapsAndFlagsBorrow : Prop :=
  ∀ (s : State) (x y : Nibble),
    decode (0x8#4 ++ x ++ y ++ 0x5#4) = .ok (.sub x y) ∧
    ∃ t, exec (.sub x y) s = .next t ∧
      (s.config.subFlagPolarity = .notBorrow →
        t.getV 0xF = if (s.getV y).toNat ≤ (s.getV x).toNat then 1 else 0) ∧
      (s.config.subFlagPolarity = .borrow →
        t.getV 0xF = if (s.getV x).toNat < (s.getV y).toNat then 1 else 0) ∧
      (x ≠ 0xF → (t.getV x).toNat = ((s.getV x).toNat + 256 - (s.getV y).toNat) % 256) ∧
      t.pc = s.pc + 2 ∧ SameExcept (· ∈ [.pc, .reg x, .reg 0xF]) s t

/-- R178: SUBN subtracts VX from VY, with the same flag. -/
def Obligations.ReverseSubtractWrapsAndFlagsBorrow : Prop :=
  ∀ (s : State) (x y : Nibble),
    decode (0x8#4 ++ x ++ y ++ 0x7#4) = .ok (.subn x y) ∧
    ∃ t, exec (.subn x y) s = .next t ∧
      (s.config.subFlagPolarity = .notBorrow →
        t.getV 0xF = if (s.getV x).toNat ≤ (s.getV y).toNat then 1 else 0) ∧
      (s.config.subFlagPolarity = .borrow →
        t.getV 0xF = if (s.getV y).toNat < (s.getV x).toNat then 1 else 0) ∧
      (x ≠ 0xF → (t.getV x).toNat = ((s.getV y).toNat + 256 - (s.getV x).toNat) % 256) ∧
      t.pc = s.pc + 2 ∧ SameExcept (· ∈ [.pc, .reg x, .reg 0xF]) s t

/-- R175: SHR halves its source, VX when modern and VY when legacy; VF is the bit shifted out. -/
def Obligations.ShiftRightHalves : Prop :=
  ∀ (s : State) (x y : Nibble),
    decode (0x8#4 ++ x ++ y ++ 0x6#4) = .ok (.shr x y) ∧
    ∃ (t : State) (src : Byte), exec (.shr x y) s = .next t ∧
      (s.config.quirkMode = .modern → src = s.getV x) ∧ (s.config.quirkMode = .legacy → src = s.getV y) ∧
      (t.getV 0xF).toNat = src.toNat % 2 ∧
      (x ≠ 0xF → (t.getV x).toNat = src.toNat / 2) ∧
      t.pc = s.pc + 2 ∧ SameExcept (· ∈ [.pc, .reg x, .reg 0xF]) s t

/-- R180: SHL doubles its source modulo 256, VX when modern and VY when legacy; VF is the bit shifted out. -/
def Obligations.ShiftLeftDoubles : Prop :=
  ∀ (s : State) (x y : Nibble),
    decode (0x8#4 ++ x ++ y ++ 0xE#4) = .ok (.shl x y) ∧
    ∃ (t : State) (src : Byte), exec (.shl x y) s = .next t ∧
      (s.config.quirkMode = .modern → src = s.getV x) ∧ (s.config.quirkMode = .legacy → src = s.getV y) ∧
      (t.getV 0xF).toNat = src.toNat / 128 ∧
      (x ≠ 0xF → (t.getV x).toNat = 2 * src.toNat % 256) ∧
      t.pc = s.pc + 2 ∧ SameExcept (· ∈ [.pc, .reg x, .reg 0xF]) s t

/-- The arithmetic laws the spec infers (R168, R171, R176, R179, R181): when X ≠ F, the result and VF together are the
exact sum, difference plus 256, source or doubled source. For the subtractions in the not_borrow polarity VF stands where
R171 writes 1 − VF, which contradicts R170; in the borrow polarity the equation is R171's as written (log 24). -/
def Obligations.FlagCompletesTheResult : Prop :=
  ∀ (s : State) (x y : Nibble), x ≠ 0xF →
    (∃ t, exec (.addReg x y) s = .next t ∧
      256 * (t.getV 0xF).toNat + (t.getV x).toNat = (s.getV x).toNat + (s.getV y).toNat) ∧
    (s.config.subFlagPolarity = .notBorrow → ∃ t, exec (.sub x y) s = .next t ∧
      256 * (t.getV 0xF).toNat + (t.getV x).toNat = (s.getV x).toNat + 256 - (s.getV y).toNat) ∧
    (s.config.subFlagPolarity = .notBorrow → ∃ t, exec (.subn x y) s = .next t ∧
      256 * (t.getV 0xF).toNat + (t.getV x).toNat = (s.getV y).toNat + 256 - (s.getV x).toNat) ∧
    (s.config.subFlagPolarity = .borrow → ∃ t, exec (.sub x y) s = .next t ∧
      (t.getV x).toNat + 256 * (1 - (t.getV 0xF).toNat) = (s.getV x).toNat + 256 - (s.getV y).toNat) ∧
    (s.config.subFlagPolarity = .borrow → ∃ t, exec (.subn x y) s = .next t ∧
      (t.getV x).toNat + 256 * (1 - (t.getV 0xF).toNat) = (s.getV y).toNat + 256 - (s.getV x).toNat) ∧
    (∃ t, exec (.shr x y) s = .next t ∧
      2 * (t.getV x).toNat + (t.getV 0xF).toNat =
        (if s.config.quirkMode = .modern then s.getV x else s.getV y).toNat) ∧
    (∃ t, exec (.shl x y) s = .next t ∧
      256 * (t.getV 0xF).toNat + (t.getV x).toNat =
        2 * (if s.config.quirkMode = .modern then s.getV x else s.getV y).toNat)

/-! ## Flow control -/

/-- R131, R138: the jumps set PC to NNN, or to NNN plus V0 without wrapping, and nothing else. -/
def Obligations.JumpsSetThePc : Prop :=
  ∀ (s : State) (nnn : Addr12),
    (decode (0x1#4 ++ nnn) = .ok (.jp nnn) ∧
      ∃ t, exec (.jp nnn) s = .next t ∧ t.pc.toNat = nnn.toNat ∧ SameExcept (· ∈ [.pc]) s t) ∧
    (decode (0xB#4 ++ nnn) = .ok (.jpV0 nnn) ∧
      ∃ t, exec (.jpV0 nnn) s = .next t ∧ t.pc.toNat = nnn.toNat + (s.getV 0).toNat ∧
        SameExcept (· ∈ [.pc]) s t)

/-- R132: CALL pushes its own address plus 2 and jumps; at depth 16 it records StackOverflow and changes nothing
else. -/
def Obligations.CallPushesTheReturnAddress : Prop :=
  ∀ (s : State) (nnn : Addr12),
    decode (0x2#4 ++ nnn) = .ok (.call nnn) ∧
    (∀ h : s.sp.val < 16, ∃ t, exec (.call nnn) s = .next t ∧
      t.stack[s.sp.val] = s.pc + 2 ∧ t.sp.val = s.sp.val + 1 ∧ t.pc.toNat = nnn.toNat ∧
      SameExcept (· ∈ [.pc, .sp, .stack ⟨s.sp.val, h⟩]) s t) ∧
    (s.sp = 16 → exec (.call nnn) s = .next { s with fault := some .stackOverflow })

/-- R133: RET pops PC; on an empty stack it records StackUnderflow and changes nothing else. -/
def Obligations.ReturnPopsThePc : Prop :=
  ∀ s : State,
    decode 0x00EE = .ok .ret ∧
    (∀ h : 0 < s.sp.val, ∃ t, exec .ret s = .next t ∧
      t.pc = s.stack[s.sp.val - 1]'(by omega) ∧ t.sp.val = s.sp.val - 1 ∧ SameExcept (· ∈ [.pc, .sp]) s t) ∧
    (s.sp = 0 → exec .ret s = .next { s with fault := some .stackUnderflow })

/-- A RET reached with the stack as CALL left it comes back to the instruction after the CALL, at the old depth. -/
def Obligations.ReturnComesBackAfterCall : Prop :=
  ∀ (s : State) (nnn : Addr12), s.sp.val < 16 →
    ∃ t, exec (.call nnn) s = .next t ∧
      ∀ u : State, u.sp = t.sp → u.stack = t.stack →
        ∃ w, exec .ret u = .next w ∧ w.pc = s.pc + 2 ∧ w.sp = s.sp

/-- R130, R134 to R137: each compare skip adds 2 more to PC exactly when its condition holds, and changes nothing
else. -/
def Obligations.CompareSkipsPassOneWord : Prop :=
  ∀ (s : State) (x y : Nibble) (nn : Byte),
    (decode (0x3#4 ++ x ++ nn) = .ok (.seImm x nn) ∧
      ∃ t, exec (.seImm x nn) s = .next t ∧
        t.pc = (if s.getV x = nn then s.pc + 2 + 2 else s.pc + 2) ∧ SameExcept (· ∈ [.pc]) s t) ∧
    (decode (0x4#4 ++ x ++ nn) = .ok (.sneImm x nn) ∧
      ∃ t, exec (.sneImm x nn) s = .next t ∧
        t.pc = (if s.getV x ≠ nn then s.pc + 2 + 2 else s.pc + 2) ∧ SameExcept (· ∈ [.pc]) s t) ∧
    (decode (0x5#4 ++ x ++ y ++ 0x0#4) = .ok (.seReg x y) ∧
      ∃ t, exec (.seReg x y) s = .next t ∧
        t.pc = (if s.getV x = s.getV y then s.pc + 2 + 2 else s.pc + 2) ∧ SameExcept (· ∈ [.pc]) s t) ∧
    (decode (0x9#4 ++ x ++ y ++ 0x0#4) = .ok (.sneReg x y) ∧
      ∃ t, exec (.sneReg x y) s = .next t ∧
        t.pc = (if s.getV x ≠ s.getV y then s.pc + 2 + 2 else s.pc + 2) ∧ SameExcept (· ∈ [.pc]) s t)

/-! ## Memory and index -/

/-- R200, R201: LD I sets I to NNN; ADD I adds VX modulo 65536 and writes no flag. -/
def Obligations.IndexLoadAndAdd : Prop :=
  ∀ (s : State) (nnn : Addr12) (x : Nibble),
    (decode (0xA#4 ++ nnn) = .ok (.ldI nnn) ∧
      ∃ t, exec (.ldI nnn) s = .next t ∧ t.i.toNat = nnn.toNat ∧ t.pc = s.pc + 2 ∧
        SameExcept (· ∈ [.pc, .index]) s t) ∧
    (decode (0xF#4 ++ x ++ 0x1E#8) = .ok (.addI x) ∧
      ∃ t, exec (.addI x) s = .next t ∧ t.i.toNat = (s.i.toNat + (s.getV x).toNat) % 65536 ∧
        t.pc = s.pc + 2 ∧ SameExcept (· ∈ [.pc, .index]) s t)

/-- R202: LD F points I at the glyph of VX's low nibble. FONT_BASE is any value in its range (R41). -/
def Obligations.FontIndexIsTheGlyphAddress : Prop :=
  ∀ (s : State) (x : Nibble), s.config.wellFormed = true →
    decode (0xF#4 ++ x ++ 0x29#8) = .ok (.ldF x) ∧
    ∃ t, exec (.ldF x) s = .next t ∧
      t.i.toNat = s.config.fontBase.toNat + 5 * ((s.getV x).toNat % 16) ∧ t.pc = s.pc + 2 ∧
      SameExcept (· ∈ [.pc, .index]) s t

/-- R205: LD B stores the three decimal digits of VX at I, I + 1, I + 2, or records MemoryAccessOutOfBounds and changes
nothing else. -/
def Obligations.BcdStoresThreeDigits : Prop :=
  ∀ (s : State) (x : Nibble),
    decode (0xF#4 ++ x ++ 0x33#8) = .ok (.ldB x) ∧
    (s.i.toNat + 2 ≤ 0xFFF → ∃ t, exec (.ldB x) s = .next t ∧
      (t.readByte (indexAddr s 0)).toNat = (s.getV x).toNat / 100 ∧
      (t.readByte (indexAddr s 1)).toNat = (s.getV x).toNat / 10 % 10 ∧
      (t.readByte (indexAddr s 2)).toNat = (s.getV x).toNat % 10 ∧ t.pc = s.pc + 2 ∧
      SameExcept (fun p => p = .pc ∨ ∃ k, k < 3 ∧ p = .byte (indexAddr s k)) s t) ∧
    (0xFFF < s.i.toNat + 2 →
      exec (.ldB x) s = .next { s with fault := some (.memoryAccessOutOfBounds (max s.i.toNat 0x1000)) })

/-- R210: LD [I], Vx stores V0..VX at I..I + X, I moving by X + 1 in legacy mode only, or records
MemoryAccessOutOfBounds and changes nothing else. -/
def Obligations.RegisterDumpStoresThePrefix : Prop :=
  ∀ (s : State) (x : Nibble),
    decode (0xF#4 ++ x ++ 0x55#8) = .ok (.ldStore x) ∧
    (s.i.toNat + x.toNat ≤ 0xFFF → ∃ t, exec (.ldStore x) s = .next t ∧
      (∀ k : Nibble, k.toNat ≤ x.toNat → t.readByte (indexAddr s k.toNat) = s.getV k) ∧
      (s.config.quirkMode = .modern → t.i = s.i) ∧
      (s.config.quirkMode = .legacy → t.i.toNat = (s.i.toNat + x.toNat + 1) % 65536) ∧ t.pc = s.pc + 2 ∧
      SameExcept (fun p => p = .pc ∨ p = .index ∨ ∃ k, k ≤ x.toNat ∧ p = .byte (indexAddr s k)) s t) ∧
    (0xFFF < s.i.toNat + x.toNat →
      exec (.ldStore x) s = .next { s with fault := some (.memoryAccessOutOfBounds (max s.i.toNat 0x1000)) })

/-- R213: LD Vx, [I] loads V0..VX from I..I + X, I moving by X + 1 in legacy mode only, or records
MemoryAccessOutOfBounds and changes nothing else. -/
def Obligations.RegisterLoadReadsThePrefix : Prop :=
  ∀ (s : State) (x : Nibble),
    decode (0xF#4 ++ x ++ 0x65#8) = .ok (.ldLoad x) ∧
    (s.i.toNat + x.toNat ≤ 0xFFF → ∃ t, exec (.ldLoad x) s = .next t ∧
      (∀ k : Nibble, k.toNat ≤ x.toNat → t.getV k = s.readByte (indexAddr s k.toNat)) ∧
      (s.config.quirkMode = .modern → t.i = s.i) ∧
      (s.config.quirkMode = .legacy → t.i.toNat = (s.i.toNat + x.toNat + 1) % 65536) ∧ t.pc = s.pc + 2 ∧
      SameExcept (fun p => p = .pc ∨ p = .index ∨ ∃ k : Nibble, k.toNat ≤ x.toNat ∧ p = .reg k) s t) ∧
    (0xFFF < s.i.toNat + x.toNat →
      exec (.ldLoad x) s = .next { s with fault := some (.memoryAccessOutOfBounds (max s.i.toNat 0x1000)) })

/-- R75, byte by byte: after a register dump each byte of the next instruction's word is the register the dump stored
there, or the byte that stood there when the dump did not reach it. -/
def Obligations.FetchSeesStoredBytes : Prop :=
  ∀ (s : State) (x : Nibble), s.i.toNat + x.toNat ≤ 0xFFF → s.pc.toNat + 3 ≤ 0xFFF →
    ∃ (t : State) (hi lo : Byte), exec (.ldStore x) s = .next t ∧ t.fetch = .ok (hi ++ lo) ∧
      (∀ k : Nibble, k.toNat ≤ x.toNat → indexAddr s k.toNat = s.pc.toNat + 2 → hi = s.getV k) ∧
      (s.pc.toNat + 2 < s.i.toNat ∨ s.i.toNat + x.toNat < s.pc.toNat + 2 → hi = s.readByte (s.pc.toNat + 2)) ∧
      (∀ k : Nibble, k.toNat ≤ x.toNat → indexAddr s k.toNat = s.pc.toNat + 3 → lo = s.getV k) ∧
      (s.pc.toNat + 3 < s.i.toNat ∨ s.i.toNat + x.toNat < s.pc.toNat + 3 → lo = s.readByte (s.pc.toNat + 3))

/-! ## Display -/

/-- R230: CLS clears every pixel and touches nothing else. -/
def Obligations.ClsClearsEveryPixel : Prop :=
  ∀ s : State, decode 0x00E0 = .ok .cls ∧
    ∃ t, exec .cls s = .next t ∧ (∀ x y, t.disp.pixel x y = false) ∧ t.pc = s.pc + 2 ∧
      SameExcept (fun p => p = .pc ∨ ∃ x y, p = .pixel x y) s t

/-- R232, R233, R234, R236: DRW changes exactly the pixels a set sprite bit lands on after wrapping, and VF says whether
some pixel went from set to unset; N = 0 changes no pixel, checks nothing and clears VF. With a row outside RAM it records
MemoryAccessOutOfBounds and changes nothing else. -/
def Obligations.DrawXorsTheWrappedSprite : Prop :=
  ∀ (s : State) (x y n : Nibble),
    decode (0xD#4 ++ x ++ y ++ n) = .ok (.drw x y n) ∧
    (n = 0 ∨ s.i.toNat + n.toNat ≤ 0x1000 → ∃ t, exec (.drw x y n) s = .next t ∧
      (∀ (px : Fin 64) (py : Fin 32), t.disp.pixel px py ≠ s.disp.pixel px py ↔
        ∃ r c, r < n.toNat ∧ c < 8 ∧ (s.readByte (indexAddr s r)).getLsbD (7 - c) = true ∧
          px.val = ((s.getV x).toNat + c) % 64 ∧ py.val = ((s.getV y).toNat + r) % 32) ∧
      ((∃ px py, s.disp.pixel px py = true ∧ t.disp.pixel px py = false) → t.getV 0xF = 1) ∧
      ((∀ px py, s.disp.pixel px py = true → t.disp.pixel px py = true) → t.getV 0xF = 0) ∧
      (n = 0 → t.disp = s.disp ∧ t.getV 0xF = 0) ∧ t.pc = s.pc + 2 ∧
      SameExcept (fun p => p = .pc ∨ p = .reg 0xF ∨ ∃ px py, p = .pixel px py) s t) ∧
    (n ≠ 0 → 0x1000 < s.i.toNat + n.toNat →
      exec (.drw x y n) s = .next { s with fault := some (.memoryAccessOutOfBounds (max s.i.toNat 0x1000)) })

/-- The double draw of R235: a second DRW with the same I, V[X], V[Y], N and sprite bytes restores the framebuffer. Its
VF is 1 exactly when some pixel under a set sprite bit was unset before the first draw (log 19: the rule's last sentence
leaves this condition out). -/
def Obligations.DrawingTwiceRestoresTheDisplay : Prop :=
  ∀ (s : State) (x y n : Nibble), (n = 0 ∨ s.i.toNat + n.toNat ≤ 0x1000) →
    ∃ t, exec (.drw x y n) s = .next t ∧
      ∀ u : State, u.disp = t.disp → u.i = s.i → u.getV x = s.getV x → u.getV y = s.getV y →
        (∀ r, r < n.toNat → u.readByte (indexAddr s r) = s.readByte (indexAddr s r)) →
        ∃ w, exec (.drw x y n) u = .next w ∧ w.disp = s.disp ∧
          ((∃ px py, s.disp.pixel px py = false ∧ t.disp.pixel px py = true) → w.getV 0xF = 1) ∧
          ((∀ px py, s.disp.pixel px py = false → t.disp.pixel px py = false) → w.getV 0xF = 0)

/-! ## Random, input, timers -/

/-- RND writes the next free draw under the mask, so no bit outside NN (R260, R261). Which draw is next is the model's
own counter (log 4); the statement holds for every value of it. -/
def Obligations.RandomByteIsMasked : Prop :=
  ∀ (s : State) (x : Nibble) (nn : Byte),
    decode (0xC#4 ++ x ++ nn) = .ok (.rnd x nn) ∧
    ∃ t, exec (.rnd x nn) s = .next t ∧ t.getV x = Config.randomDraw s.drawIndex &&& nn ∧
      t.getV x &&& ~~~nn = 0 ∧ t.drawIndex = s.drawIndex + 1 ∧ t.pc = s.pc + 2 ∧
      SameExcept (· ∈ [.pc, .reg x, .draws]) s t

/-- R270, R271, R272: the key skips test the key of VX's low nibble. -/
def Obligations.KeySkipsTestTheLowNibble : Prop :=
  ∀ (s : State) (x k : Nibble), k.toNat = (s.getV x).toNat % 16 →
    (decode (0xE#4 ++ x ++ 0x9E#8) = .ok (.skp x) ∧
      ∃ t, exec (.skp x) s = .next t ∧
        t.pc = (if s.getKey k = true then s.pc + 2 + 2 else s.pc + 2) ∧ SameExcept (· ∈ [.pc]) s t) ∧
    (decode (0xE#4 ++ x ++ 0xA1#8) = .ok (.sknp x) ∧
      ∃ t, exec (.sknp x) s = .next t ∧
        t.pc = (if s.getKey k = false then s.pc + 2 + 2 else s.pc + 2) ∧ SameExcept (· ∈ [.pc]) s t)

/-- R280: LD Vx, K stores the lowest pressed key and goes on, or, with no key pressed, sets AwaitingKey and changes
nothing else, so that the next step fetches it again. -/
def Obligations.KeyWaitStoresTheLowestKeyOrHolds : Prop :=
  ∀ (s : State) (x : Nibble),
    decode (0xF#4 ++ x ++ 0x0A#8) = .ok (.ldVxK x) ∧
    (∀ k : Nibble, s.getKey k = true → (∀ j : Nibble, j.toNat < k.toNat → s.getKey j = false) →
      ∃ t, exec (.ldVxK x) s = .next t ∧ (t.getV x).toNat = k.toNat ∧ t.awaitingKey = false ∧ t.pc = s.pc + 2 ∧
        SameExcept (· ∈ [.pc, .reg x, .awaitingKey]) s t) ∧
    (s.noKeyPressed → exec (.ldVxK x) s = .next { s with awaitingKey := true })

/-- R281: a program waiting for a key makes no progress, however often it is stepped. `Host.Core.run` issues STEP only:
no SET_KEY, TICK, LOAD or RESET arrives between its steps (log 2). -/
def Obligations.WaitingRunsStayPut : Prop :=
  ∀ s : State, s.awaitingKey = true → s.WaitsAtKey → s.noKeyPressed →
    ∀ k : Nat, Host.Core.run Sys2Proof.core k s = .next s

/-- The end of a run of R361, a jump to itself with no error, is a fixed point of the step. `Host.Core.run` issues STEP
only: no SET_KEY, TICK, LOAD or RESET arrives between its steps (log 2). -/
def Obligations.EndOfRunIsAFixedPoint : Prop :=
  ∀ (s : State) (a : Addr12), s.AtEnd a → ∀ k : Nat, Host.Core.run Sys2Proof.core k s = .next s

/-- R290, R291, R292: the moves between a register and the timers. -/
def Obligations.TimerMoves : Prop :=
  ∀ (s : State) (x : Nibble),
    (decode (0xF#4 ++ x ++ 0x07#8) = .ok (.ldVxDt x) ∧
      ∃ t, exec (.ldVxDt x) s = .next t ∧ t.getV x = s.dt ∧ t.pc = s.pc + 2 ∧
        SameExcept (· ∈ [.pc, .reg x]) s t) ∧
    (decode (0xF#4 ++ x ++ 0x15#8) = .ok (.ldDt x) ∧
      ∃ t, exec (.ldDt x) s = .next t ∧ t.dt = s.getV x ∧ t.pc = s.pc + 2 ∧
        SameExcept (· ∈ [.pc, .dt]) s t) ∧
    (decode (0xF#4 ++ x ++ 0x18#8) = .ok (.ldSt x) ∧
      ∃ t, exec (.ldSt x) s = .next t ∧ t.st = s.getV x ∧ t.pc = s.pc + 2 ∧
        SameExcept (· ∈ [.pc, .st]) s t)

/-! ## The host's operations -/

/-- R320: TICK takes one from each timer that is above zero, in every state, and changes nothing else. -/
def Obligations.TickCountsDownToZero : Prop :=
  ∀ s : State, ∃ t, perform .tick s = .next (t, .nothing) ∧ t.dt.toNat = s.dt.toNat - 1 ∧
    t.st.toNat = s.st.toNat - 1 ∧ SameExcept (· ∈ [.dt, .st]) s t

/-- A STEP never decrements a timer (R31, R321): DT changes only by LD DT, ST only by LD ST. -/
def Obligations.StepsDoNotCountTimers : Prop :=
  ∀ (i : Instr) (s t : State), exec i s = .next t →
    ((∀ x, i ≠ .ldDt x) → t.dt = s.dt) ∧ ((∀ x, i ≠ .ldSt x) → t.st = s.st)

/-- R71, R72: LOAD copies a ROM of at most 3584 bytes to 0x200 and changes nothing else; a longer one answers
RomTooLarge and changes nothing. -/
def Obligations.LoadCopiesTheRomOrRefusesIt : Prop :=
  ∀ (s : State) (rom : List Byte),
    (rom.length ≤ 3584 → ∃ t, perform (.load rom) s = .next (t, .result none) ∧
      (∀ (k : Nat) (h : k < rom.length), t.readByte (0x200 + k) = rom[k]) ∧
      SameExcept (fun p => ∃ k, k < rom.length ∧ p = .byte (0x200 + k)) s t) ∧
    (3584 < rom.length → perform (.load rom) s = .next (s, .result (some (.romTooLarge rom.length))))

/-- R332: SET_KEY writes one key and nothing else; a key number above 15 is refused. -/
def Obligations.SetKeyWritesOneKey : Prop :=
  (∀ (s : State) (k : Nibble) (b : Bool), ∃ t, perform (.setKey k.toNat b) s = .next (t, .nothing) ∧
    t.getKey k = b ∧ SameExcept (· ∈ [.key k]) s t) ∧
  (∀ (s : State) (k : Nat) (b : Bool), 16 ≤ k → perform (.setKey k b) s = .refused (.keyNumberOutOfRange k))

/-- R32, R333, R334: the reads change nothing; READ_DISPLAY answers 2048 pixels, row-major, READ_SOUND whether ST is
above zero. -/
def Obligations.HostReadsReportTheState : Prop :=
  ∀ s : State,
    (∃ g : List Bool, perform .readDisplay s = .next (s, .display g) ∧ g.length = 2048 ∧
      ∀ (x : Fin 64) (y : Fin 32), g[y.val * 64 + x.val]? = some (s.disp.pixel x y)) ∧
    perform .readSound s = .next (s, .sound (decide (0 < s.st.toNat))) ∧
    perform .readStatus s = .next (s, .status s.awaitingKey s.fault)

/-- R47, R350, R351: what RESET leaves, whatever the block held before. -/
def Obligations.ResetLeavesTheResetValues : Prop :=
  ∀ (s : State) (c : Config), c.wellFormed = true → ∃ t, perform (.reset c) s = .next (t, .nothing) ∧
    (∀ x, t.getV x = 0) ∧ t.i = 0 ∧ t.pc = 0x200 ∧ t.sp = 0 ∧ (∀ k : Fin 16, t.stack[k.val] = 0) ∧ t.dt = 0 ∧
    t.st = 0 ∧ (∀ j : Fin 80, t.readByte (c.fontBase.toNat + j.val) = c.font[j.val]) ∧
    (∀ a, a < c.fontBase.toNat ∨ c.fontBase.toNat + 80 ≤ a → t.readByte a = 0) ∧
    (∀ x y, t.disp.pixel x y = false) ∧ (∀ k, t.getKey k = false) ∧ t.awaitingKey = false ∧ t.fault = none ∧
    t.config = c

/-- R353: a STEP before any LOAD fetches 00 00 at 0x200 and records UnknownOpcode(0x0000), in every configuration. -/
def Obligations.StepBeforeLoadIsUnknownOpcode : Prop :=
  ∀ c : Config, c.wellFormed = true →
    step (State.resetWith c) = .next { State.resetWith c with fault := some (.unknownOpcode 0x0000) }

/-- The host's stand-in for LOAD (log 8): the step after placing an instruction's word runs that instruction. -/
def Obligations.PlacedWordIsTheNextInstruction : Prop :=
  ∀ (s : State) (i : Instr),
    step (s.withFetchWord 16 (encode i).toNat) = exec i (s.withFetchWord 16 (encode i).toNat)
end

