-- ==== Sys2Proof/Laws/Decode.lean ====
section
/-! SUPPORT. The value of a word in each format of R92, what the opcode fields of R91 read from it, and the byte order
of R66. -/

namespace Sys2Proof

/-! ## The value of a format -/

theorem toNat_append_add {m n : Nat} (a : BitVec m) (b : BitVec n) :
    (a ++ b).toNat = a.toNat * 2 ^ n + b.toNat := by
  rw [BitVec.toNat_append, ← Nat.shiftLeft_add_eq_or_of_lt b.isLt, Nat.shiftLeft_eq]

theorem toNat_formatA (o : Nibble) (nnn : Addr12) : (formatA o nnn).toNat = o.toNat * 4096 + nnn.toNat :=
  toNat_append_add o nnn

theorem toNat_formatXB (o x : Nibble) (nn : Byte) :
    (formatXB o x nn).toNat = o.toNat * 4096 + x.toNat * 256 + nn.toNat := by
  have h : (formatXB o x nn).toNat = (o ++ x).toNat * 256 + nn.toNat := toNat_append_add (o ++ x) nn
  rw [h, toNat_append_add]; omega

theorem toNat_formatXY (o x y n : Nibble) :
    (formatXY o x y n).toNat = o.toNat * 4096 + x.toNat * 256 + y.toNat * 16 + n.toNat := by
  have h : (formatXY o x y n).toNat = (o ++ x ++ y).toNat * 16 + n.toNat := toNat_append_add (o ++ x ++ y) n
  rw [h, toNat_append_add, toNat_append_add]; omega

theorem toNat_wordOfBytes (hi lo : Byte) : (wordOfBytes hi lo).toNat = hi.toNat * 256 + lo.toNat :=
  toNat_append_add hi lo

/-- Format FX is format FXB with the sub-opcode in the byte field. -/
theorem formatX_eq (o x : Nibble) (b : Byte) : formatX o x b = formatXB o x b := rfl

/-! ## The value of a field -/

theorem toNat_fieldOp (w : Word) : (fieldOp w).toNat = w.toNat / 4096 := by
  have := w.isLt; simp [fieldOp, Nat.shiftRight_eq_div_pow]; omega
theorem toNat_fieldX (w : Word) : (fieldX w).toNat = w.toNat / 256 % 16 := by
  simp [fieldX, Nat.shiftRight_eq_div_pow]
theorem toNat_fieldY (w : Word) : (fieldY w).toNat = w.toNat / 16 % 16 := by
  simp [fieldY, Nat.shiftRight_eq_div_pow]
theorem toNat_fieldN (w : Word) : (fieldN w).toNat = w.toNat % 16 := by simp [fieldN]
theorem toNat_fieldNN (w : Word) : (fieldNN w).toNat = w.toNat % 256 := by simp [fieldNN]
theorem toNat_fieldNNN (w : Word) : (fieldNNN w).toNat = w.toNat % 4096 := by simp [fieldNNN]

/-! ## The fields of a format -/

@[simp] theorem fieldOp_formatA (o : Nibble) (nnn : Addr12) : fieldOp (formatA o nnn) = o := by
  apply BitVec.eq_of_toNat_eq; rw [toNat_fieldOp, toNat_formatA]; omega
@[simp] theorem fieldNNN_formatA (o : Nibble) (nnn : Addr12) : fieldNNN (formatA o nnn) = nnn := by
  apply BitVec.eq_of_toNat_eq; rw [toNat_fieldNNN, toNat_formatA]; omega

@[simp] theorem fieldOp_formatXB (o x : Nibble) (nn : Byte) : fieldOp (formatXB o x nn) = o := by
  apply BitVec.eq_of_toNat_eq; rw [toNat_fieldOp, toNat_formatXB]; omega
@[simp] theorem fieldX_formatXB (o x : Nibble) (nn : Byte) : fieldX (formatXB o x nn) = x := by
  apply BitVec.eq_of_toNat_eq; rw [toNat_fieldX, toNat_formatXB]; omega
@[simp] theorem fieldNN_formatXB (o x : Nibble) (nn : Byte) : fieldNN (formatXB o x nn) = nn := by
  apply BitVec.eq_of_toNat_eq; rw [toNat_fieldNN, toNat_formatXB]; omega

@[simp] theorem fieldOp_formatXY (o x y n : Nibble) : fieldOp (formatXY o x y n) = o := by
  apply BitVec.eq_of_toNat_eq; rw [toNat_fieldOp, toNat_formatXY]; omega
@[simp] theorem fieldX_formatXY (o x y n : Nibble) : fieldX (formatXY o x y n) = x := by
  apply BitVec.eq_of_toNat_eq; rw [toNat_fieldX, toNat_formatXY]; omega
@[simp] theorem fieldY_formatXY (o x y n : Nibble) : fieldY (formatXY o x y n) = y := by
  apply BitVec.eq_of_toNat_eq; rw [toNat_fieldY, toNat_formatXY]; omega
@[simp] theorem fieldN_formatXY (o x y n : Nibble) : fieldN (formatXY o x y n) = n := by
  apply BitVec.eq_of_toNat_eq; rw [toNat_fieldN, toNat_formatXY]; omega

@[simp] theorem fieldOp_formatX (o x : Nibble) (b : Byte) : fieldOp (formatX o x b) = o := by simp [formatX_eq]
@[simp] theorem fieldX_formatX (o x : Nibble) (b : Byte) : fieldX (formatX o x b) = x := by simp [formatX_eq]
@[simp] theorem fieldNN_formatX (o x : Nibble) (b : Byte) : fieldNN (formatX o x b) = b := by simp [formatX_eq]

/-! ## Byte order -/

/-- The spelling of R66, `(hi << 8) | lo`. -/
theorem wordOfBytes_eq_shift_or (hi lo : Byte) :
    wordOfBytes hi lo = (hi.setWidth 16 <<< 8) ||| lo.setWidth 16 := by
  apply BitVec.eq_of_toNat_eq
  have h := hi.isLt; have l := lo.isLt
  have e : hi.toNat <<< 8 = hi.toNat * 256 := by rw [Nat.shiftLeft_eq]
  rw [toNat_wordOfBytes, ← e, Nat.shiftLeft_add_eq_or_of_lt (by omega)]
  simp only [BitVec.toNat_or, BitVec.toNat_shiftLeft, BitVec.toNat_setWidth]
  rw [Nat.mod_eq_of_lt (show hi.toNat < 2 ^ 16 by omega), Nat.mod_eq_of_lt (show lo.toNat < 2 ^ 16 by omega), e,
    Nat.mod_eq_of_lt (by omega)]

/-- Splitting a word into its two bytes and joining them gives the word back. -/
@[simp] theorem wordOfBytes_split (w : Word) : wordOfBytes (highByte w) (lowByte w) = w := by
  apply BitVec.eq_of_toNat_eq
  have := w.isLt
  rw [toNat_wordOfBytes]; simp [highByte, lowByte, Nat.shiftRight_eq_div_pow]; omega

end Sys2Proof
end

