-- ==== Sys2Proof/Laws/State.lean ====
section
/-! SUPPORT. One lemma per field per update of State, and what reading back a write gives. -/

namespace Sys2Proof.Machine

/-! ### `State.setV` -/

@[simp] theorem State.setV_i (s : State) (x : Nibble) (b : Byte) : (s.setV x b).i = s.i := rfl
@[simp] theorem State.setV_pc (s : State) (x : Nibble) (b : Byte) : (s.setV x b).pc = s.pc := rfl
@[simp] theorem State.setV_sp (s : State) (x : Nibble) (b : Byte) : (s.setV x b).sp = s.sp := rfl
@[simp] theorem State.setV_stack (s : State) (x : Nibble) (b : Byte) : (s.setV x b).stack = s.stack := rfl
@[simp] theorem State.setV_dt (s : State) (x : Nibble) (b : Byte) : (s.setV x b).dt = s.dt := rfl
@[simp] theorem State.setV_st (s : State) (x : Nibble) (b : Byte) : (s.setV x b).st = s.st := rfl
@[simp] theorem State.setV_mem (s : State) (x : Nibble) (b : Byte) : (s.setV x b).mem = s.mem := rfl
@[simp] theorem State.setV_disp (s : State) (x : Nibble) (b : Byte) : (s.setV x b).disp = s.disp := rfl
@[simp] theorem State.setV_key (s : State) (x : Nibble) (b : Byte) : (s.setV x b).key = s.key := rfl
@[simp] theorem State.setV_awaitingKey (s : State) (x : Nibble) (b : Byte) : (s.setV x b).awaitingKey = s.awaitingKey := rfl
@[simp] theorem State.setV_fault (s : State) (x : Nibble) (b : Byte) : (s.setV x b).fault = s.fault := rfl
@[simp] theorem State.setV_config (s : State) (x : Nibble) (b : Byte) : (s.setV x b).config = s.config := rfl
@[simp] theorem State.setV_drawIndex (s : State) (x : Nibble) (b : Byte) : (s.setV x b).drawIndex = s.drawIndex := rfl

/-! ### `State.setI` -/

@[simp] theorem State.setI_v (s : State) (w : Word) : (s.setI w).v = s.v := rfl
@[simp] theorem State.setI_i (s : State) (w : Word) : (s.setI w).i = w := rfl
@[simp] theorem State.setI_pc (s : State) (w : Word) : (s.setI w).pc = s.pc := rfl
@[simp] theorem State.setI_sp (s : State) (w : Word) : (s.setI w).sp = s.sp := rfl
@[simp] theorem State.setI_stack (s : State) (w : Word) : (s.setI w).stack = s.stack := rfl
@[simp] theorem State.setI_dt (s : State) (w : Word) : (s.setI w).dt = s.dt := rfl
@[simp] theorem State.setI_st (s : State) (w : Word) : (s.setI w).st = s.st := rfl
@[simp] theorem State.setI_mem (s : State) (w : Word) : (s.setI w).mem = s.mem := rfl
@[simp] theorem State.setI_disp (s : State) (w : Word) : (s.setI w).disp = s.disp := rfl
@[simp] theorem State.setI_key (s : State) (w : Word) : (s.setI w).key = s.key := rfl
@[simp] theorem State.setI_awaitingKey (s : State) (w : Word) : (s.setI w).awaitingKey = s.awaitingKey := rfl
@[simp] theorem State.setI_fault (s : State) (w : Word) : (s.setI w).fault = s.fault := rfl
@[simp] theorem State.setI_config (s : State) (w : Word) : (s.setI w).config = s.config := rfl
@[simp] theorem State.setI_drawIndex (s : State) (w : Word) : (s.setI w).drawIndex = s.drawIndex := rfl

/-! ### `State.setPc` -/

@[simp] theorem State.setPc_v (s : State) (w : Word) : (s.setPc w).v = s.v := rfl
@[simp] theorem State.setPc_i (s : State) (w : Word) : (s.setPc w).i = s.i := rfl
@[simp] theorem State.setPc_pc (s : State) (w : Word) : (s.setPc w).pc = w := rfl
@[simp] theorem State.setPc_sp (s : State) (w : Word) : (s.setPc w).sp = s.sp := rfl
@[simp] theorem State.setPc_stack (s : State) (w : Word) : (s.setPc w).stack = s.stack := rfl
@[simp] theorem State.setPc_dt (s : State) (w : Word) : (s.setPc w).dt = s.dt := rfl
@[simp] theorem State.setPc_st (s : State) (w : Word) : (s.setPc w).st = s.st := rfl
@[simp] theorem State.setPc_mem (s : State) (w : Word) : (s.setPc w).mem = s.mem := rfl
@[simp] theorem State.setPc_disp (s : State) (w : Word) : (s.setPc w).disp = s.disp := rfl
@[simp] theorem State.setPc_key (s : State) (w : Word) : (s.setPc w).key = s.key := rfl
@[simp] theorem State.setPc_awaitingKey (s : State) (w : Word) : (s.setPc w).awaitingKey = s.awaitingKey := rfl
@[simp] theorem State.setPc_fault (s : State) (w : Word) : (s.setPc w).fault = s.fault := rfl
@[simp] theorem State.setPc_config (s : State) (w : Word) : (s.setPc w).config = s.config := rfl
@[simp] theorem State.setPc_drawIndex (s : State) (w : Word) : (s.setPc w).drawIndex = s.drawIndex := rfl

/-! ### `State.setDt` -/

@[simp] theorem State.setDt_v (s : State) (b : Byte) : (s.setDt b).v = s.v := rfl
@[simp] theorem State.setDt_i (s : State) (b : Byte) : (s.setDt b).i = s.i := rfl
@[simp] theorem State.setDt_pc (s : State) (b : Byte) : (s.setDt b).pc = s.pc := rfl
@[simp] theorem State.setDt_sp (s : State) (b : Byte) : (s.setDt b).sp = s.sp := rfl
@[simp] theorem State.setDt_stack (s : State) (b : Byte) : (s.setDt b).stack = s.stack := rfl
@[simp] theorem State.setDt_dt (s : State) (b : Byte) : (s.setDt b).dt = b := rfl
@[simp] theorem State.setDt_st (s : State) (b : Byte) : (s.setDt b).st = s.st := rfl
@[simp] theorem State.setDt_mem (s : State) (b : Byte) : (s.setDt b).mem = s.mem := rfl
@[simp] theorem State.setDt_disp (s : State) (b : Byte) : (s.setDt b).disp = s.disp := rfl
@[simp] theorem State.setDt_key (s : State) (b : Byte) : (s.setDt b).key = s.key := rfl
@[simp] theorem State.setDt_awaitingKey (s : State) (b : Byte) : (s.setDt b).awaitingKey = s.awaitingKey := rfl
@[simp] theorem State.setDt_fault (s : State) (b : Byte) : (s.setDt b).fault = s.fault := rfl
@[simp] theorem State.setDt_config (s : State) (b : Byte) : (s.setDt b).config = s.config := rfl
@[simp] theorem State.setDt_drawIndex (s : State) (b : Byte) : (s.setDt b).drawIndex = s.drawIndex := rfl

/-! ### `State.setSt` -/

@[simp] theorem State.setSt_v (s : State) (b : Byte) : (s.setSt b).v = s.v := rfl
@[simp] theorem State.setSt_i (s : State) (b : Byte) : (s.setSt b).i = s.i := rfl
@[simp] theorem State.setSt_pc (s : State) (b : Byte) : (s.setSt b).pc = s.pc := rfl
@[simp] theorem State.setSt_sp (s : State) (b : Byte) : (s.setSt b).sp = s.sp := rfl
@[simp] theorem State.setSt_stack (s : State) (b : Byte) : (s.setSt b).stack = s.stack := rfl
@[simp] theorem State.setSt_dt (s : State) (b : Byte) : (s.setSt b).dt = s.dt := rfl
@[simp] theorem State.setSt_st (s : State) (b : Byte) : (s.setSt b).st = b := rfl
@[simp] theorem State.setSt_mem (s : State) (b : Byte) : (s.setSt b).mem = s.mem := rfl
@[simp] theorem State.setSt_disp (s : State) (b : Byte) : (s.setSt b).disp = s.disp := rfl
@[simp] theorem State.setSt_key (s : State) (b : Byte) : (s.setSt b).key = s.key := rfl
@[simp] theorem State.setSt_awaitingKey (s : State) (b : Byte) : (s.setSt b).awaitingKey = s.awaitingKey := rfl
@[simp] theorem State.setSt_fault (s : State) (b : Byte) : (s.setSt b).fault = s.fault := rfl
@[simp] theorem State.setSt_config (s : State) (b : Byte) : (s.setSt b).config = s.config := rfl
@[simp] theorem State.setSt_drawIndex (s : State) (b : Byte) : (s.setSt b).drawIndex = s.drawIndex := rfl

/-! ### `State.setAwaitingKey` -/

@[simp] theorem State.setAwaitingKey_v (s : State) (b : Bool) : (s.setAwaitingKey b).v = s.v := rfl
@[simp] theorem State.setAwaitingKey_i (s : State) (b : Bool) : (s.setAwaitingKey b).i = s.i := rfl
@[simp] theorem State.setAwaitingKey_pc (s : State) (b : Bool) : (s.setAwaitingKey b).pc = s.pc := rfl
@[simp] theorem State.setAwaitingKey_sp (s : State) (b : Bool) : (s.setAwaitingKey b).sp = s.sp := rfl
@[simp] theorem State.setAwaitingKey_stack (s : State) (b : Bool) : (s.setAwaitingKey b).stack = s.stack := rfl
@[simp] theorem State.setAwaitingKey_dt (s : State) (b : Bool) : (s.setAwaitingKey b).dt = s.dt := rfl
@[simp] theorem State.setAwaitingKey_st (s : State) (b : Bool) : (s.setAwaitingKey b).st = s.st := rfl
@[simp] theorem State.setAwaitingKey_mem (s : State) (b : Bool) : (s.setAwaitingKey b).mem = s.mem := rfl
@[simp] theorem State.setAwaitingKey_disp (s : State) (b : Bool) : (s.setAwaitingKey b).disp = s.disp := rfl
@[simp] theorem State.setAwaitingKey_key (s : State) (b : Bool) : (s.setAwaitingKey b).key = s.key := rfl
@[simp] theorem State.setAwaitingKey_awaitingKey (s : State) (b : Bool) : (s.setAwaitingKey b).awaitingKey = b := rfl
@[simp] theorem State.setAwaitingKey_fault (s : State) (b : Bool) : (s.setAwaitingKey b).fault = s.fault := rfl
@[simp] theorem State.setAwaitingKey_config (s : State) (b : Bool) : (s.setAwaitingKey b).config = s.config := rfl
@[simp] theorem State.setAwaitingKey_drawIndex (s : State) (b : Bool) : (s.setAwaitingKey b).drawIndex = s.drawIndex := rfl

/-! ### `State.setDisp` -/

@[simp] theorem State.setDisp_v (s : State) (d : Display) : (s.setDisp d).v = s.v := rfl
@[simp] theorem State.setDisp_i (s : State) (d : Display) : (s.setDisp d).i = s.i := rfl
@[simp] theorem State.setDisp_pc (s : State) (d : Display) : (s.setDisp d).pc = s.pc := rfl
@[simp] theorem State.setDisp_sp (s : State) (d : Display) : (s.setDisp d).sp = s.sp := rfl
@[simp] theorem State.setDisp_stack (s : State) (d : Display) : (s.setDisp d).stack = s.stack := rfl
@[simp] theorem State.setDisp_dt (s : State) (d : Display) : (s.setDisp d).dt = s.dt := rfl
@[simp] theorem State.setDisp_st (s : State) (d : Display) : (s.setDisp d).st = s.st := rfl
@[simp] theorem State.setDisp_mem (s : State) (d : Display) : (s.setDisp d).mem = s.mem := rfl
@[simp] theorem State.setDisp_disp (s : State) (d : Display) : (s.setDisp d).disp = d := rfl
@[simp] theorem State.setDisp_key (s : State) (d : Display) : (s.setDisp d).key = s.key := rfl
@[simp] theorem State.setDisp_awaitingKey (s : State) (d : Display) : (s.setDisp d).awaitingKey = s.awaitingKey := rfl
@[simp] theorem State.setDisp_fault (s : State) (d : Display) : (s.setDisp d).fault = s.fault := rfl
@[simp] theorem State.setDisp_config (s : State) (d : Display) : (s.setDisp d).config = s.config := rfl
@[simp] theorem State.setDisp_drawIndex (s : State) (d : Display) : (s.setDisp d).drawIndex = s.drawIndex := rfl

/-! ### `State.setKey` -/

@[simp] theorem State.setKey_v (s : State) (k : Nibble) (b : Bool) : (s.setKey k b).v = s.v := rfl
@[simp] theorem State.setKey_i (s : State) (k : Nibble) (b : Bool) : (s.setKey k b).i = s.i := rfl
@[simp] theorem State.setKey_pc (s : State) (k : Nibble) (b : Bool) : (s.setKey k b).pc = s.pc := rfl
@[simp] theorem State.setKey_sp (s : State) (k : Nibble) (b : Bool) : (s.setKey k b).sp = s.sp := rfl
@[simp] theorem State.setKey_stack (s : State) (k : Nibble) (b : Bool) : (s.setKey k b).stack = s.stack := rfl
@[simp] theorem State.setKey_dt (s : State) (k : Nibble) (b : Bool) : (s.setKey k b).dt = s.dt := rfl
@[simp] theorem State.setKey_st (s : State) (k : Nibble) (b : Bool) : (s.setKey k b).st = s.st := rfl
@[simp] theorem State.setKey_mem (s : State) (k : Nibble) (b : Bool) : (s.setKey k b).mem = s.mem := rfl
@[simp] theorem State.setKey_disp (s : State) (k : Nibble) (b : Bool) : (s.setKey k b).disp = s.disp := rfl
@[simp] theorem State.setKey_awaitingKey (s : State) (k : Nibble) (b : Bool) : (s.setKey k b).awaitingKey = s.awaitingKey := rfl
@[simp] theorem State.setKey_fault (s : State) (k : Nibble) (b : Bool) : (s.setKey k b).fault = s.fault := rfl
@[simp] theorem State.setKey_config (s : State) (k : Nibble) (b : Bool) : (s.setKey k b).config = s.config := rfl
@[simp] theorem State.setKey_drawIndex (s : State) (k : Nibble) (b : Bool) : (s.setKey k b).drawIndex = s.drawIndex := rfl

/-! ### `State.countDraw` -/

@[simp] theorem State.countDraw_v (s : State) : s.countDraw.v = s.v := rfl
@[simp] theorem State.countDraw_i (s : State) : s.countDraw.i = s.i := rfl
@[simp] theorem State.countDraw_pc (s : State) : s.countDraw.pc = s.pc := rfl
@[simp] theorem State.countDraw_sp (s : State) : s.countDraw.sp = s.sp := rfl
@[simp] theorem State.countDraw_stack (s : State) : s.countDraw.stack = s.stack := rfl
@[simp] theorem State.countDraw_dt (s : State) : s.countDraw.dt = s.dt := rfl
@[simp] theorem State.countDraw_st (s : State) : s.countDraw.st = s.st := rfl
@[simp] theorem State.countDraw_mem (s : State) : s.countDraw.mem = s.mem := rfl
@[simp] theorem State.countDraw_disp (s : State) : s.countDraw.disp = s.disp := rfl
@[simp] theorem State.countDraw_key (s : State) : s.countDraw.key = s.key := rfl
@[simp] theorem State.countDraw_awaitingKey (s : State) : s.countDraw.awaitingKey = s.awaitingKey := rfl
@[simp] theorem State.countDraw_fault (s : State) : s.countDraw.fault = s.fault := rfl
@[simp] theorem State.countDraw_config (s : State) : s.countDraw.config = s.config := rfl
@[simp] theorem State.countDraw_drawIndex (s : State) : s.countDraw.drawIndex = s.drawIndex + 1 := rfl

/-! ### `State.raise` -/

@[simp] theorem State.raise_v (s : State) (e : VmError) : (s.raise e).v = s.v := rfl
@[simp] theorem State.raise_i (s : State) (e : VmError) : (s.raise e).i = s.i := rfl
@[simp] theorem State.raise_pc (s : State) (e : VmError) : (s.raise e).pc = s.pc := rfl
@[simp] theorem State.raise_sp (s : State) (e : VmError) : (s.raise e).sp = s.sp := rfl
@[simp] theorem State.raise_stack (s : State) (e : VmError) : (s.raise e).stack = s.stack := rfl
@[simp] theorem State.raise_dt (s : State) (e : VmError) : (s.raise e).dt = s.dt := rfl
@[simp] theorem State.raise_st (s : State) (e : VmError) : (s.raise e).st = s.st := rfl
@[simp] theorem State.raise_mem (s : State) (e : VmError) : (s.raise e).mem = s.mem := rfl
@[simp] theorem State.raise_disp (s : State) (e : VmError) : (s.raise e).disp = s.disp := rfl
@[simp] theorem State.raise_key (s : State) (e : VmError) : (s.raise e).key = s.key := rfl
@[simp] theorem State.raise_awaitingKey (s : State) (e : VmError) : (s.raise e).awaitingKey = s.awaitingKey := rfl
@[simp] theorem State.raise_fault (s : State) (e : VmError) : (s.raise e).fault = some e := rfl
@[simp] theorem State.raise_config (s : State) (e : VmError) : (s.raise e).config = s.config := rfl
@[simp] theorem State.raise_drawIndex (s : State) (e : VmError) : (s.raise e).drawIndex = s.drawIndex := rfl

/-! ### `State.writeByte` -/

@[simp] theorem State.writeByte_v (s : State) (a : Nat) (b : Byte) : (s.writeByte a b).v = s.v := rfl
@[simp] theorem State.writeByte_i (s : State) (a : Nat) (b : Byte) : (s.writeByte a b).i = s.i := rfl
@[simp] theorem State.writeByte_pc (s : State) (a : Nat) (b : Byte) : (s.writeByte a b).pc = s.pc := rfl
@[simp] theorem State.writeByte_sp (s : State) (a : Nat) (b : Byte) : (s.writeByte a b).sp = s.sp := rfl
@[simp] theorem State.writeByte_stack (s : State) (a : Nat) (b : Byte) : (s.writeByte a b).stack = s.stack := rfl
@[simp] theorem State.writeByte_dt (s : State) (a : Nat) (b : Byte) : (s.writeByte a b).dt = s.dt := rfl
@[simp] theorem State.writeByte_st (s : State) (a : Nat) (b : Byte) : (s.writeByte a b).st = s.st := rfl
@[simp] theorem State.writeByte_mem (s : State) (a : Nat) (b : Byte) : (s.writeByte a b).mem = Memory.write (resetByte s.config) s.mem a b := rfl
@[simp] theorem State.writeByte_disp (s : State) (a : Nat) (b : Byte) : (s.writeByte a b).disp = s.disp := rfl
@[simp] theorem State.writeByte_key (s : State) (a : Nat) (b : Byte) : (s.writeByte a b).key = s.key := rfl
@[simp] theorem State.writeByte_awaitingKey (s : State) (a : Nat) (b : Byte) : (s.writeByte a b).awaitingKey = s.awaitingKey := rfl
@[simp] theorem State.writeByte_fault (s : State) (a : Nat) (b : Byte) : (s.writeByte a b).fault = s.fault := rfl
@[simp] theorem State.writeByte_config (s : State) (a : Nat) (b : Byte) : (s.writeByte a b).config = s.config := rfl
@[simp] theorem State.writeByte_drawIndex (s : State) (a : Nat) (b : Byte) : (s.writeByte a b).drawIndex = s.drawIndex := rfl

/-! ### `State.advance` -/

@[simp] theorem State.advance_v (s : State) : s.advance.v = s.v := rfl
@[simp] theorem State.advance_i (s : State) : s.advance.i = s.i := rfl
@[simp] theorem State.advance_pc (s : State) : s.advance.pc = s.pc + 2 := rfl
@[simp] theorem State.advance_sp (s : State) : s.advance.sp = s.sp := rfl
@[simp] theorem State.advance_stack (s : State) : s.advance.stack = s.stack := rfl
@[simp] theorem State.advance_dt (s : State) : s.advance.dt = s.dt := rfl
@[simp] theorem State.advance_st (s : State) : s.advance.st = s.st := rfl
@[simp] theorem State.advance_mem (s : State) : s.advance.mem = s.mem := rfl
@[simp] theorem State.advance_disp (s : State) : s.advance.disp = s.disp := rfl
@[simp] theorem State.advance_key (s : State) : s.advance.key = s.key := rfl
@[simp] theorem State.advance_awaitingKey (s : State) : s.advance.awaitingKey = s.awaitingKey := rfl
@[simp] theorem State.advance_fault (s : State) : s.advance.fault = s.fault := rfl
@[simp] theorem State.advance_config (s : State) : s.advance.config = s.config := rfl
@[simp] theorem State.advance_drawIndex (s : State) : s.advance.drawIndex = s.drawIndex := rfl

/-! ### `State.setVThenFlag` -/

@[simp] theorem State.setVThenFlag_i (s : State) (x : Nibble) (r f : Byte) : (s.setVThenFlag x r f).i = s.i := rfl
@[simp] theorem State.setVThenFlag_pc (s : State) (x : Nibble) (r f : Byte) : (s.setVThenFlag x r f).pc = s.pc := rfl
@[simp] theorem State.setVThenFlag_sp (s : State) (x : Nibble) (r f : Byte) : (s.setVThenFlag x r f).sp = s.sp := rfl
@[simp] theorem State.setVThenFlag_stack (s : State) (x : Nibble) (r f : Byte) : (s.setVThenFlag x r f).stack = s.stack := rfl
@[simp] theorem State.setVThenFlag_dt (s : State) (x : Nibble) (r f : Byte) : (s.setVThenFlag x r f).dt = s.dt := rfl
@[simp] theorem State.setVThenFlag_st (s : State) (x : Nibble) (r f : Byte) : (s.setVThenFlag x r f).st = s.st := rfl
@[simp] theorem State.setVThenFlag_mem (s : State) (x : Nibble) (r f : Byte) : (s.setVThenFlag x r f).mem = s.mem := rfl
@[simp] theorem State.setVThenFlag_disp (s : State) (x : Nibble) (r f : Byte) : (s.setVThenFlag x r f).disp = s.disp := rfl
@[simp] theorem State.setVThenFlag_key (s : State) (x : Nibble) (r f : Byte) : (s.setVThenFlag x r f).key = s.key := rfl
@[simp] theorem State.setVThenFlag_awaitingKey (s : State) (x : Nibble) (r f : Byte) : (s.setVThenFlag x r f).awaitingKey = s.awaitingKey := rfl
@[simp] theorem State.setVThenFlag_fault (s : State) (x : Nibble) (r f : Byte) : (s.setVThenFlag x r f).fault = s.fault := rfl
@[simp] theorem State.setVThenFlag_config (s : State) (x : Nibble) (r f : Byte) : (s.setVThenFlag x r f).config = s.config := rfl
@[simp] theorem State.setVThenFlag_drawIndex (s : State) (x : Nibble) (r f : Byte) : (s.setVThenFlag x r f).drawIndex = s.drawIndex := rfl

/-! ### `State.tick` -/

@[simp] theorem State.tick_v (s : State) : s.tick.v = s.v := rfl
@[simp] theorem State.tick_i (s : State) : s.tick.i = s.i := rfl
@[simp] theorem State.tick_pc (s : State) : s.tick.pc = s.pc := rfl
@[simp] theorem State.tick_sp (s : State) : s.tick.sp = s.sp := rfl
@[simp] theorem State.tick_stack (s : State) : s.tick.stack = s.stack := rfl
@[simp] theorem State.tick_dt (s : State) : s.tick.dt = countDown s.dt := rfl
@[simp] theorem State.tick_st (s : State) : s.tick.st = countDown s.st := rfl
@[simp] theorem State.tick_mem (s : State) : s.tick.mem = s.mem := rfl
@[simp] theorem State.tick_disp (s : State) : s.tick.disp = s.disp := rfl
@[simp] theorem State.tick_key (s : State) : s.tick.key = s.key := rfl
@[simp] theorem State.tick_awaitingKey (s : State) : s.tick.awaitingKey = s.awaitingKey := rfl
@[simp] theorem State.tick_fault (s : State) : s.tick.fault = s.fault := rfl
@[simp] theorem State.tick_config (s : State) : s.tick.config = s.config := rfl
@[simp] theorem State.tick_drawIndex (s : State) : s.tick.drawIndex = s.drawIndex := rfl

/-! ### `State.skip`: only the program counter -/

@[simp] theorem State.skip_v (s : State) (c : Bool) : (s.skip c).v = s.v := by cases c <;> rfl
@[simp] theorem State.skip_i (s : State) (c : Bool) : (s.skip c).i = s.i := by cases c <;> rfl
@[simp] theorem State.skip_sp (s : State) (c : Bool) : (s.skip c).sp = s.sp := by cases c <;> rfl
@[simp] theorem State.skip_stack (s : State) (c : Bool) : (s.skip c).stack = s.stack := by cases c <;> rfl
@[simp] theorem State.skip_dt (s : State) (c : Bool) : (s.skip c).dt = s.dt := by cases c <;> rfl
@[simp] theorem State.skip_st (s : State) (c : Bool) : (s.skip c).st = s.st := by cases c <;> rfl
@[simp] theorem State.skip_mem (s : State) (c : Bool) : (s.skip c).mem = s.mem := by cases c <;> rfl
@[simp] theorem State.skip_disp (s : State) (c : Bool) : (s.skip c).disp = s.disp := by cases c <;> rfl
@[simp] theorem State.skip_key (s : State) (c : Bool) : (s.skip c).key = s.key := by cases c <;> rfl
@[simp] theorem State.skip_awaitingKey (s : State) (c : Bool) : (s.skip c).awaitingKey = s.awaitingKey := by cases c <;> rfl
@[simp] theorem State.skip_fault (s : State) (c : Bool) : (s.skip c).fault = s.fault := by cases c <;> rfl
@[simp] theorem State.skip_config (s : State) (c : Bool) : (s.skip c).config = s.config := by cases c <;> rfl
@[simp] theorem State.skip_drawIndex (s : State) (c : Bool) : (s.skip c).drawIndex = s.drawIndex := by cases c <;> rfl
@[simp] theorem State.skip_pc (s : State) (c : Bool) : (s.skip c).pc = if c then s.pc + 2 else s.pc := by cases c <;> rfl

/-! ### `State.writeBytes`: only RAM -/

@[simp] theorem State.writeBytes_v (s : State) (base : Nat) (bs : List Byte) :
    (s.writeBytes base bs).v = s.v := by
  induction bs generalizing s base with
  | nil => rfl
  | cons b bs ih => simp [State.writeBytes, ih]
@[simp] theorem State.writeBytes_i (s : State) (base : Nat) (bs : List Byte) :
    (s.writeBytes base bs).i = s.i := by
  induction bs generalizing s base with
  | nil => rfl
  | cons b bs ih => simp [State.writeBytes, ih]
@[simp] theorem State.writeBytes_pc (s : State) (base : Nat) (bs : List Byte) :
    (s.writeBytes base bs).pc = s.pc := by
  induction bs generalizing s base with
  | nil => rfl
  | cons b bs ih => simp [State.writeBytes, ih]
@[simp] theorem State.writeBytes_sp (s : State) (base : Nat) (bs : List Byte) :
    (s.writeBytes base bs).sp = s.sp := by
  induction bs generalizing s base with
  | nil => rfl
  | cons b bs ih => simp [State.writeBytes, ih]
@[simp] theorem State.writeBytes_stack (s : State) (base : Nat) (bs : List Byte) :
    (s.writeBytes base bs).stack = s.stack := by
  induction bs generalizing s base with
  | nil => rfl
  | cons b bs ih => simp [State.writeBytes, ih]
@[simp] theorem State.writeBytes_dt (s : State) (base : Nat) (bs : List Byte) :
    (s.writeBytes base bs).dt = s.dt := by
  induction bs generalizing s base with
  | nil => rfl
  | cons b bs ih => simp [State.writeBytes, ih]
@[simp] theorem State.writeBytes_st (s : State) (base : Nat) (bs : List Byte) :
    (s.writeBytes base bs).st = s.st := by
  induction bs generalizing s base with
  | nil => rfl
  | cons b bs ih => simp [State.writeBytes, ih]
@[simp] theorem State.writeBytes_disp (s : State) (base : Nat) (bs : List Byte) :
    (s.writeBytes base bs).disp = s.disp := by
  induction bs generalizing s base with
  | nil => rfl
  | cons b bs ih => simp [State.writeBytes, ih]
@[simp] theorem State.writeBytes_key (s : State) (base : Nat) (bs : List Byte) :
    (s.writeBytes base bs).key = s.key := by
  induction bs generalizing s base with
  | nil => rfl
  | cons b bs ih => simp [State.writeBytes, ih]
@[simp] theorem State.writeBytes_awaitingKey (s : State) (base : Nat) (bs : List Byte) :
    (s.writeBytes base bs).awaitingKey = s.awaitingKey := by
  induction bs generalizing s base with
  | nil => rfl
  | cons b bs ih => simp [State.writeBytes, ih]
@[simp] theorem State.writeBytes_fault (s : State) (base : Nat) (bs : List Byte) :
    (s.writeBytes base bs).fault = s.fault := by
  induction bs generalizing s base with
  | nil => rfl
  | cons b bs ih => simp [State.writeBytes, ih]
@[simp] theorem State.writeBytes_config (s : State) (base : Nat) (bs : List Byte) :
    (s.writeBytes base bs).config = s.config := by
  induction bs generalizing s base with
  | nil => rfl
  | cons b bs ih => simp [State.writeBytes, ih]
@[simp] theorem State.writeBytes_drawIndex (s : State) (base : Nat) (bs : List Byte) :
    (s.writeBytes base bs).drawIndex = s.drawIndex := by
  induction bs generalizing s base with
  | nil => rfl
  | cons b bs ih => simp [State.writeBytes, ih]

/-! ### Reading a register, a key or a byte depends on one field -/

theorem State.getV_congr {s t : State} (h : t.v = s.v) (y : Nibble) : t.getV y = s.getV y := by simp [State.getV, h]

theorem State.getKey_congr {s t : State} (h : t.key = s.key) (k : Nibble) : t.getKey k = s.getKey k := by
  simp [State.getKey, h]

theorem State.readByte_congr {s t : State} (hm : t.mem = s.mem) (hc : t.config = s.config) (a : Nat) :
    t.readByte a = s.readByte a := by simp [State.readByte, hm, hc]

@[simp] theorem State.getV_setI (s : State) (w : Word) (y : Nibble) : (s.setI w).getV y = s.getV y := rfl
@[simp] theorem State.getV_setPc (s : State) (w : Word) (y : Nibble) : (s.setPc w).getV y = s.getV y := rfl
@[simp] theorem State.getV_setDt (s : State) (b : Byte) (y : Nibble) : (s.setDt b).getV y = s.getV y := rfl
@[simp] theorem State.getV_setSt (s : State) (b : Byte) (y : Nibble) : (s.setSt b).getV y = s.getV y := rfl
@[simp] theorem State.getV_setAwaitingKey (s : State) (b : Bool) (y : Nibble) : (s.setAwaitingKey b).getV y = s.getV y := rfl
@[simp] theorem State.getV_setDisp (s : State) (d : Display) (y : Nibble) : (s.setDisp d).getV y = s.getV y := rfl
@[simp] theorem State.getV_setKey (s : State) (k : Nibble) (b : Bool) (y : Nibble) : (s.setKey k b).getV y = s.getV y := rfl
@[simp] theorem State.getV_countDraw (s : State) (y : Nibble) : s.countDraw.getV y = s.getV y := rfl
@[simp] theorem State.getV_raise (s : State) (e : VmError) (y : Nibble) : (s.raise e).getV y = s.getV y := rfl
@[simp] theorem State.getV_writeByte (s : State) (a : Nat) (b : Byte) (y : Nibble) : (s.writeByte a b).getV y = s.getV y := rfl
@[simp] theorem State.getV_advance (s : State) (y : Nibble) : s.advance.getV y = s.getV y := rfl
@[simp] theorem State.getV_tick (s : State) (y : Nibble) : s.tick.getV y = s.getV y := rfl
@[simp] theorem State.getV_skip (s : State) (c : Bool) (y : Nibble) : (s.skip c).getV y = s.getV y :=
  State.getV_congr (by simp) y
@[simp] theorem State.getV_writeBytes (s : State) (base : Nat) (bs : List Byte) (y : Nibble) :
    (s.writeBytes base bs).getV y = s.getV y := State.getV_congr (by simp) y

@[simp] theorem State.getKey_setV (s : State) (x : Nibble) (b : Byte) (j : Nibble) : (s.setV x b).getKey j = s.getKey j := rfl
@[simp] theorem State.getKey_setI (s : State) (w : Word) (j : Nibble) : (s.setI w).getKey j = s.getKey j := rfl
@[simp] theorem State.getKey_setPc (s : State) (w : Word) (j : Nibble) : (s.setPc w).getKey j = s.getKey j := rfl
@[simp] theorem State.getKey_setDt (s : State) (b : Byte) (j : Nibble) : (s.setDt b).getKey j = s.getKey j := rfl
@[simp] theorem State.getKey_setSt (s : State) (b : Byte) (j : Nibble) : (s.setSt b).getKey j = s.getKey j := rfl
@[simp] theorem State.getKey_setAwaitingKey (s : State) (b : Bool) (j : Nibble) : (s.setAwaitingKey b).getKey j = s.getKey j := rfl
@[simp] theorem State.getKey_setDisp (s : State) (d : Display) (j : Nibble) : (s.setDisp d).getKey j = s.getKey j := rfl
@[simp] theorem State.getKey_countDraw (s : State) (j : Nibble) : s.countDraw.getKey j = s.getKey j := rfl
@[simp] theorem State.getKey_raise (s : State) (e : VmError) (j : Nibble) : (s.raise e).getKey j = s.getKey j := rfl
@[simp] theorem State.getKey_writeByte (s : State) (a : Nat) (b : Byte) (j : Nibble) : (s.writeByte a b).getKey j = s.getKey j := rfl
@[simp] theorem State.getKey_advance (s : State) (j : Nibble) : s.advance.getKey j = s.getKey j := rfl
@[simp] theorem State.getKey_setVThenFlag (s : State) (x : Nibble) (r f : Byte) (j : Nibble) : (s.setVThenFlag x r f).getKey j = s.getKey j := rfl
@[simp] theorem State.getKey_tick (s : State) (j : Nibble) : s.tick.getKey j = s.getKey j := rfl
@[simp] theorem State.getKey_skip (s : State) (c : Bool) (j : Nibble) : (s.skip c).getKey j = s.getKey j :=
  State.getKey_congr (by simp) j
@[simp] theorem State.getKey_writeBytes (s : State) (base : Nat) (bs : List Byte) (j : Nibble) :
    (s.writeBytes base bs).getKey j = s.getKey j := State.getKey_congr (by simp) j

@[simp] theorem State.readByte_setV (s : State) (x : Nibble) (b : Byte) (c : Nat) : (s.setV x b).readByte c = s.readByte c := rfl
@[simp] theorem State.readByte_setI (s : State) (w : Word) (c : Nat) : (s.setI w).readByte c = s.readByte c := rfl
@[simp] theorem State.readByte_setPc (s : State) (w : Word) (c : Nat) : (s.setPc w).readByte c = s.readByte c := rfl
@[simp] theorem State.readByte_setDt (s : State) (b : Byte) (c : Nat) : (s.setDt b).readByte c = s.readByte c := rfl
@[simp] theorem State.readByte_setSt (s : State) (b : Byte) (c : Nat) : (s.setSt b).readByte c = s.readByte c := rfl
@[simp] theorem State.readByte_setAwaitingKey (s : State) (b : Bool) (c : Nat) : (s.setAwaitingKey b).readByte c = s.readByte c := rfl
@[simp] theorem State.readByte_setDisp (s : State) (d : Display) (c : Nat) : (s.setDisp d).readByte c = s.readByte c := rfl
@[simp] theorem State.readByte_setKey (s : State) (k : Nibble) (b : Bool) (c : Nat) : (s.setKey k b).readByte c = s.readByte c := rfl
@[simp] theorem State.readByte_countDraw (s : State) (c : Nat) : s.countDraw.readByte c = s.readByte c := rfl
@[simp] theorem State.readByte_raise (s : State) (e : VmError) (c : Nat) : (s.raise e).readByte c = s.readByte c := rfl
@[simp] theorem State.readByte_advance (s : State) (c : Nat) : s.advance.readByte c = s.readByte c := rfl
@[simp] theorem State.readByte_setVThenFlag (s : State) (x : Nibble) (r f : Byte) (c : Nat) : (s.setVThenFlag x r f).readByte c = s.readByte c := rfl
@[simp] theorem State.readByte_tick (s : State) (c : Nat) : s.tick.readByte c = s.readByte c := rfl
@[simp] theorem State.readByte_skip (s : State) (b : Bool) (c : Nat) : (s.skip b).readByte c = s.readByte c :=
  State.readByte_congr (by simp) (by simp) c

@[simp] theorem State.getV_setV (s : State) (x y : Nibble) (b : Byte) :
    (s.setV x b).getV y = if y = x then b else s.getV y := by
  unfold State.getV State.setV
  by_cases h : y = x
  · subst h; simp
  · have : x.toNat ≠ y.toNat := fun e => h (BitVec.eq_of_toNat_eq e.symm)
    simp [h, this]

@[simp] theorem State.getV_setVThenFlag (s : State) (x y : Nibble) (r f : Byte) :
    (s.setVThenFlag x r f).getV y = if y = 0xF then f else if y = x then r else s.getV y := by
  simp [State.setVThenFlag]

@[simp] theorem State.getKey_setKey (s : State) (k j : Nibble) (b : Bool) :
    (s.setKey k b).getKey j = if j = k then b else s.getKey j := by
  unfold State.getKey State.setKey
  by_cases h : j = k
  · subst h; simp
  · have : k.toNat ≠ j.toNat := fun e => h (BitVec.eq_of_toNat_eq e.symm)
    simp [h, this]

/-- The draw does not depend on anything but the counter. -/
theorem State.draw_congr {s t : State} (h : t.drawIndex = s.drawIndex) : t.draw = s.draw := by simp [State.draw, h]

@[simp] theorem State.draw_advance (s : State) : s.advance.draw = s.draw := rfl

@[simp] theorem State.lowestPressedKey_advance (s : State) : s.advance.lowestPressedKey = s.lowestPressedKey := rfl

end Sys2Proof.Machine
end

