-- ==== Sys2Proof/Laws/Memory.lean ====
section
/-! SUPPORT. RAM: reading after a write, the canonical form and what it gives, ranges of bytes, and the bounds check. -/

namespace Sys2Proof.Machine

/-! ## One byte -/

theorem Memory.read_eraseCell (d : Nat → Byte) (a c : Nat) (m : List Host.Cell) :
    Memory.read d (Memory.eraseCell a m) c = if c = a then d c else Memory.read d m c := by
  induction m with
  | nil => simp [Memory.eraseCell, Memory.read]
  | cons p rest ih =>
    obtain ⟨b, w⟩ := p
    by_cases hb : b = a
    · subst hb
      by_cases hc : c = b
      · simpa [Memory.eraseCell, hc] using ih
      · simp [Memory.eraseCell, Memory.read, ih, hc, Ne.symm hc]
    · by_cases hc : c = a
      · subst hc; simp [Memory.eraseCell, Memory.read, hb, ih]
      · simp [Memory.eraseCell, Memory.read, hb, ih, hc]

/-- Where an address is not listed, an inserted cell is what it reads as, and every other address keeps its value. -/
theorem Memory.read_insertCell (d : Nat → Byte) (a : Nat) (v : Byte) (c : Nat) (m : List Host.Cell)
    (h : ∀ p ∈ m, p.1 ≠ a) :
    Memory.read d (Memory.insertCell a v m) c = if c = a then v else Memory.read d m c := by
  induction m with
  | nil => simp [Memory.insertCell, Memory.read, eq_comm]
  | cons p rest ih =>
    obtain ⟨b, w⟩ := p
    have hb : b ≠ a := h (b, w) (by simp)
    by_cases hlt : a < b
    · simp [Memory.insertCell, hlt, Memory.read, eq_comm]
    · have ih' := ih (fun p hp => h p (by simp [hp]))
      by_cases hc : c = a
      · subst hc; simp [Memory.insertCell, hlt, Memory.read, hb, ih']
      · simp [Memory.insertCell, hlt, Memory.read, ih', hc]

theorem Memory.mem_eraseCell {a : Nat} {p : Host.Cell} {m : List Host.Cell} :
    p ∈ Memory.eraseCell a m ↔ p ∈ m ∧ p.1 ≠ a := by
  induction m with
  | nil => simp [Memory.eraseCell]
  | cons q rest ih =>
    obtain ⟨b, w⟩ := q
    by_cases hb : b = a
    · subst hb
      simp only [Memory.eraseCell, if_true, ih, List.mem_cons]
      constructor
      · rintro ⟨h1, h2⟩; exact ⟨.inr h1, h2⟩
      · rintro ⟨h1 | h1, h2⟩
        · subst h1; exact absurd rfl h2
        · exact ⟨h1, h2⟩
    · simp only [Memory.eraseCell, if_neg hb, List.mem_cons, ih]
      constructor
      · rintro (h | ⟨h1, h2⟩)
        · subst h; exact ⟨.inl rfl, hb⟩
        · exact ⟨.inr h1, h2⟩
      · rintro ⟨h1 | h1, h2⟩
        · exact .inl h1
        · exact .inr ⟨h1, h2⟩

theorem Memory.mem_insertCell {a : Nat} {v : Byte} {p : Host.Cell} {m : List Host.Cell} :
    p ∈ Memory.insertCell a v m ↔ p = (a, v) ∨ p ∈ m := by
  induction m with
  | nil => simp [Memory.insertCell]
  | cons q rest ih =>
    obtain ⟨b, w⟩ := q
    by_cases hlt : a < b
    · simp [Memory.insertCell, hlt]
    · simp only [Memory.insertCell, if_neg hlt, List.mem_cons, ih]; tauto

/-- Reading after a write (R73): the written address reads the written byte, every other address what it read. -/
@[simp] theorem Memory.read_write (d : Nat → Byte) (m : List Host.Cell) (a : Nat) (v : Byte) (c : Nat) :
    Memory.read d (Memory.write d m a v) c = if c = a then v else Memory.read d m c := by
  unfold Memory.write
  split
  · rename_i hv
    rw [Memory.read_eraseCell]
    by_cases hc : c = a
    · subst hc; simp [hv]
    · simp [hc]
  · rw [Memory.read_insertCell _ _ _ _ _ fun p hp => (Memory.mem_eraseCell.mp hp).2, Memory.read_eraseCell]
    by_cases hc : c = a <;> simp [hc]

/-! ## The canonical form -/

theorem Memory.pairwise_eraseCell {a : Nat} {m : List Host.Cell} (h : m.Pairwise fun p q => p.1 < q.1) :
    (Memory.eraseCell a m).Pairwise fun p q => p.1 < q.1 := by
  induction m with
  | nil => simp [Memory.eraseCell]
  | cons q rest ih =>
    obtain ⟨b, w⟩ := q
    rw [List.pairwise_cons] at h
    by_cases hb : b = a
    · simp [Memory.eraseCell, hb, ih h.2]
    · simp only [Memory.eraseCell, if_neg hb, List.pairwise_cons]
      exact ⟨fun p hp => h.1 p (Memory.mem_eraseCell.mp hp).1, ih h.2⟩

theorem Memory.pairwise_insertCell {a : Nat} {v : Byte} {m : List Host.Cell}
    (h : m.Pairwise fun p q => p.1 < q.1) (ha : ∀ p ∈ m, p.1 ≠ a) :
    (Memory.insertCell a v m).Pairwise fun p q => p.1 < q.1 := by
  induction m with
  | nil => simp [Memory.insertCell]
  | cons q rest ih =>
    obtain ⟨b, w⟩ := q
    have hb : b ≠ a := ha (b, w) (by simp)
    have h' := List.pairwise_cons.mp h
    by_cases hlt : a < b
    · simp only [Memory.insertCell, if_pos hlt, List.pairwise_cons]
      refine ⟨fun p hp => ?_, h'⟩
      rcases List.mem_cons.mp hp with hp | hp
      · subst hp; exact hlt
      · exact lt_trans hlt (h'.1 p hp)
    · simp only [Memory.insertCell, if_neg hlt, List.pairwise_cons]
      refine ⟨fun p hp => ?_, ih h'.2 fun p hp => ha p (by simp [hp])⟩
      rcases Memory.mem_insertCell.mp hp with hp | hp
      · subst hp; show b < a; omega
      · exact h'.1 p hp

/-- A write inside RAM keeps the canonical form. -/
theorem Memory.write_wf {d : Nat → Byte} {m : List Host.Cell} {a : Nat} (v : Byte) (h : Memory.wf d m)
    (ha : a < memSize) : Memory.wf d (Memory.write d m a v) := by
  have he : ∀ p ∈ Memory.eraseCell a m, p.1 < memSize ∧ p.2 ≠ d p.1 :=
    fun p hp => h.2 p (Memory.mem_eraseCell.mp hp).1
  unfold Memory.write
  split
  · exact ⟨Memory.pairwise_eraseCell h.1, he⟩
  · rename_i hv
    refine ⟨Memory.pairwise_insertCell (Memory.pairwise_eraseCell h.1) fun p hp => (Memory.mem_eraseCell.mp hp).2, ?_⟩
    intro p hp
    rcases Memory.mem_insertCell.mp hp with hp | hp
    · subst hp; exact ⟨ha, hv⟩
    · exact he p hp

/-- The empty memory, every address at its reset contents, is canonical. -/
theorem Memory.wf_nil (d : Nat → Byte) : Memory.wf d [] := by simp [Memory.wf]

theorem Memory.read_of_mem {d : Nat → Byte} {m : List Host.Cell} {p : Host.Cell}
    (h : m.Pairwise fun p q => p.1 < q.1) (hp : p ∈ m) : Memory.read d m p.1 = p.2 := by
  induction m with
  | nil => simp at hp
  | cons q rest ih =>
    obtain ⟨b, w⟩ := q
    have h' := List.pairwise_cons.mp h
    rcases List.mem_cons.mp hp with hp | hp
    · subst hp; simp [Memory.read]
    · have : b < p.1 := h'.1 p hp
      simp [Memory.read, show b ≠ p.1 by omega, ih h'.2 hp]

theorem Memory.read_of_not_listed {d : Nat → Byte} {m : List Host.Cell} {a : Nat} (h : ∀ p ∈ m, p.1 ≠ a) :
    Memory.read d m a = d a := by
  induction m with
  | nil => rfl
  | cons q rest ih =>
    obtain ⟨b, w⟩ := q
    simp [Memory.read, show b ≠ a from h (b, w) (by simp), ih fun p hp => h p (by simp [hp])]

/-- A listed cell of a canonical memory is exactly an address that does not read as its reset contents. -/
theorem Memory.mem_iff_of_wf {d : Nat → Byte} {m : List Host.Cell} (h : Memory.wf d m) (p : Host.Cell) :
    p ∈ m ↔ Memory.read d m p.1 = p.2 ∧ p.2 ≠ d p.1 := by
  constructor
  · intro hp; exact ⟨Memory.read_of_mem h.1 hp, (h.2 p hp).2⟩
  · rintro ⟨hr, hn⟩
    by_contra hp
    have : ∀ q ∈ m, q.1 ≠ p.1 := by
      rintro q hq e
      have := Memory.read_of_mem (d := d) h.1 hq
      rw [e, hr] at this
      exact hp (by rw [show p = q from Prod.ext e.symm this]; exact hq)
    exact hn (hr.symm.trans (Memory.read_of_not_listed this))

/-! ## Bytes of the state -/

@[simp] theorem State.readByte_writeByte (s : State) (a : Nat) (b : Byte) (c : Nat) :
    (s.writeByte a b).readByte c = if c = a then b else s.readByte c := by
  simp [State.readByte]

/-- Writing a run of bytes: those addresses read the run, every other address what it read. -/
theorem State.readByte_writeBytes (s : State) (base : Nat) (bs : List Byte) (c : Nat) :
    (s.writeBytes base bs).readByte c =
      if base ≤ c ∧ c < base + bs.length then bs.getD (c - base) 0 else s.readByte c := by
  induction bs generalizing s base with
  | nil => simp [State.writeBytes]
  | cons b rest ih =>
    rw [State.writeBytes, ih, State.readByte_writeByte]
    by_cases h1 : base + 1 ≤ c ∧ c < base + 1 + rest.length
    · have e : c - base = (c - (base + 1)) + 1 := by omega
      rw [if_pos h1, if_pos (by simp only [List.length_cons]; omega), e, List.getD_cons_succ]
    · rw [if_neg h1]
      by_cases h2 : c = base
      · subst h2; simp
      · rw [if_neg h2, if_neg (by simp only [List.length_cons]; omega)]

/-- An address outside a written run reads what it read. -/
theorem State.readByte_writeBytes_outside (s : State) {base c : Nat} {bs : List Byte}
    (h : ¬ (base ≤ c ∧ c < base + bs.length)) : (s.writeBytes base bs).readByte c = s.readByte c := by
  rw [State.readByte_writeBytes, if_neg h]

/-- Writing a run of bytes inside RAM keeps the canonical form. -/
theorem State.writeBytes_wf (s : State) (base : Nat) (bs : List Byte) (h : Memory.wf (resetByte s.config) s.mem)
    (hb : base + bs.length ≤ memSize) : Memory.wf (resetByte s.config) (s.writeBytes base bs).mem := by
  induction bs generalizing s base with
  | nil => exact h
  | cons b rest ih =>
    simp only [List.length_cons] at hb
    exact ih (s.writeByte base b) (base + 1) (Memory.write_wf b h (by omega)) (by omega)

@[simp] theorem State.readBytes_length (s : State) (base n : Nat) : (s.readBytes base n).length = n := by
  simp [State.readBytes]

@[simp] theorem State.readBytes_getElem (s : State) (base n k : Nat) (h : k < (s.readBytes base n).length) :
    (s.readBytes base n)[k] = s.readByte (base + k) := by simp [State.readBytes]

theorem State.readBytes_congr {s t : State} (h : ∀ a, t.readByte a = s.readByte a) (base n : Nat) :
    t.readBytes base n = s.readBytes base n := by simp [State.readBytes, h]

@[simp] theorem State.readBytes_advance (s : State) (base n : Nat) :
    s.advance.readBytes base n = s.readBytes base n := rfl

/-! ## The bounds check and the fetch -/

/-- The ascending check reports the lowest out-of-range address of the access (R63). -/
theorem checkRange_eq (base n : Nat) :
    checkRange base n =
      if n = 0 ∨ base + n ≤ 0x1000 then .ok () else .error (.memoryAccessOutOfBounds (max base 0x1000)) := by
  induction n generalizing base with
  | zero => simp [checkRange]
  | succ n ih =>
    by_cases h : 0xFFF < base
    · have : ¬ (n + 1 = 0 ∨ base + (n + 1) ≤ 0x1000) := by omega
      simp only [checkRange, checkAddr, if_pos h, if_neg this]
      rw [Nat.max_eq_left (by omega)]
    · simp only [checkRange, checkAddr, if_neg h, ih]
      rw [show max (base + 1) 0x1000 = max base 0x1000 by omega]
      by_cases h2 : n = 0 ∨ base + 1 + n ≤ 0x1000
      · rw [if_pos h2, if_pos (by omega)]
      · rw [if_neg h2, if_neg (by omega)]

theorem checkRange_ok {base n : Nat} (h : n = 0 ∨ base + n ≤ 0x1000) : checkRange base n = .ok () := by
  rw [checkRange_eq, if_pos h]

theorem checkRange_error {base n : Nat} (h0 : n ≠ 0) (h : 0x1000 < base + n) :
    checkRange base n = .error (.memoryAccessOutOfBounds (max base 0x1000)) := by
  rw [checkRange_eq, if_neg (by omega)]

/-- The fetch: both bytes in RAM, or the error of R112. -/
theorem State.fetch_eq (s : State) :
    s.fetch = if s.pc.toNat ≤ 0xFFE then .ok (wordOfBytes (s.readByte s.pc.toNat) (s.readByte (s.pc.toNat + 1)))
      else .error (.memoryAccessOutOfBounds (max s.pc.toNat 0x1000)) := by
  unfold State.fetch
  by_cases h : s.pc.toNat ≤ 0xFFE
  · rw [checkRange_ok (by omega), if_pos h]
  · rw [checkRange_error (by omega) (by omega), if_neg h]

end Sys2Proof.Machine
end

