-- ==== Sys2Proof/Laws/Display.lean ====
section
/-! SUPPORT. The framebuffer: one pixel of each operation, and the closed form of the blitter's loops (R232–R234). -/

namespace Sys2Proof.Machine

/-- Two framebuffers with the same pixels are the same. -/
theorem Display.ext {d e : Display} (h : ∀ x y, d.pixel x y = e.pixel x y) : d = e := by
  apply Vector.ext; intro y hy
  apply Vector.ext; intro x hx
  exact h ⟨x, hx⟩ ⟨y, hy⟩

@[simp] theorem Display.pixel_clear (x : Fin 64) (y : Fin 32) : Display.clear.pixel x y = false := by
  simp [Display.pixel, Display.clear]

/-- Inverting one pixel inverts that pixel and no other. -/
@[simp] theorem Display.pixel_flip (d : Display) (x px : Fin 64) (y py : Fin 32) :
    (d.flip px py).pixel x y = (d.pixel x y ^^ decide (px = x ∧ py = y)) := by
  unfold Display.pixel Display.flip
  by_cases hy : py = y
  · subst hy
    by_cases hx : px = x
    · subst hx; simp
    · have : px.val ≠ x.val := fun e => hx (Fin.ext e)
      simp [hx, this]
  · have : py.val ≠ y.val := fun e => hy (Fin.ext e)
    simp [hy, this]

theorem Drawing.pixel_plot (g : Drawing) (x y : Nat) (px : Fin 64) (py : Fin 32) :
    (g.plot x y).1.pixel px py = (g.1.pixel px py ^^ decide (x % 64 = px.val ∧ y % 32 = py.val)) := by
  simp [Drawing.plot, Fin.ext_iff]

theorem Drawing.collision_plot (g : Drawing) {x y : Nat} {px : Fin 64} {py : Fin 32} (hx : x % 64 = px.val)
    (hy : y % 32 = py.val) : (g.plot x y).2 = (g.2 || g.1.pixel px py) := by
  have ex : (⟨x % 64, Nat.mod_lt x (by decide)⟩ : Fin 64) = px := Fin.ext hx
  have ey : (⟨y % 32, Nat.mod_lt y (by decide)⟩ : Fin 32) = py := Fin.ext hy
  simp only [Drawing.plot, ex, ey]

/-! ## One row -/

/-- The first n columns of a row. -/
def Drawing.columns (g : Drawing) (b : Byte) (x0 y n : Nat) : Drawing :=
  (List.range n).foldl (fun g c => if b.getLsbD (7 - c) then g.plot (x0 + c) y else g) g

theorem Drawing.columns_succ (g : Drawing) (b : Byte) (x0 y n : Nat) :
    g.columns b x0 y (n + 1) =
      if b.getLsbD (7 - n) then (g.columns b x0 y n).plot (x0 + n) y else g.columns b x0 y n := by
  simp [Drawing.columns, List.range_succ]

theorem Drawing.row_eq (g : Drawing) (b : Byte) (x0 y : Nat) : g.row b x0 y = g.columns b x0 y 8 := rfl

/-- The first n columns of a sprite row cover a pixel. -/
def columnsCover (b : Byte) (x0 y n : Nat) (px : Fin 64) (py : Fin 32) : Prop :=
  ∃ c, c < n ∧ b.getLsbD (7 - c) = true ∧ (x0 + c) % 64 = px.val ∧ y % 32 = py.val

theorem columnsCover_succ (b : Byte) (x0 y n : Nat) (px : Fin 64) (py : Fin 32) :
    columnsCover b x0 y (n + 1) px py ↔
      columnsCover b x0 y n px py ∨ (b.getLsbD (7 - n) = true ∧ (x0 + n) % 64 = px.val ∧ y % 32 = py.val) := by
  constructor
  · rintro ⟨c, hc, h⟩
    rcases Nat.lt_succ_iff_lt_or_eq.mp hc with hc | hc
    · exact .inl ⟨c, hc, h⟩
    · subst hc; exact .inr h
  · rintro (⟨c, hc, h⟩ | h)
    · exact ⟨c, by omega, h⟩
    · exact ⟨n, by omega, h⟩

/-- Columns of one row are distinct modulo 64 (R234). -/
theorem columnsCover_unique {b : Byte} {x0 y n : Nat} {px : Fin 64} {py : Fin 32} (hn : n < 64)
    (h : columnsCover b x0 y n px py) : (x0 + n) % 64 ≠ px.val := by
  obtain ⟨c, hc, -, hx, -⟩ := h
  omega

open Classical in
theorem Drawing.pixel_columns (g : Drawing) (b : Byte) (x0 y n : Nat) (hn : n ≤ 64) (px : Fin 64) (py : Fin 32) :
    (g.columns b x0 y n).1.pixel px py = (g.1.pixel px py ^^ decide (columnsCover b x0 y n px py)) := by
  induction n with
  | zero => simp [Drawing.columns, columnsCover]
  | succ n ih =>
    have ih := ih (by omega)
    rw [Drawing.columns_succ]
    have key := columnsCover_succ b x0 y n px py
    by_cases hb : b.getLsbD (7 - n) = true
    · rw [if_pos hb, Drawing.pixel_plot, ih]
      by_cases hp : (x0 + n) % 64 = px.val ∧ y % 32 = py.val
      · have hnot : ¬ columnsCover b x0 y n px py := fun h => columnsCover_unique (by omega) h hp.1
        have hyes : columnsCover b x0 y (n + 1) px py := key.mpr (.inr ⟨hb, hp⟩)
        rw [decide_eq_false hnot, decide_eq_true hp, decide_eq_true hyes]; simp
      · have : columnsCover b x0 y (n + 1) px py ↔ columnsCover b x0 y n px py := by
          rw [key]; exact or_iff_left fun h => hp h.2
        simp only [decide_eq_false hp, this, Bool.xor_false]
    · have : columnsCover b x0 y (n + 1) px py ↔ columnsCover b x0 y n px py := by
        rw [key]; exact or_iff_left fun h => hb h.1
      simp only [if_neg hb, ih, this]

open Classical in
theorem Drawing.collision_columns (g : Drawing) (b : Byte) (x0 y n : Nat) (hn : n ≤ 64) :
    (g.columns b x0 y n).2 =
      (g.2 || decide (∃ px py, columnsCover b x0 y n px py ∧ g.1.pixel px py = true)) := by
  induction n with
  | zero => simp [Drawing.columns, columnsCover]
  | succ n ih =>
    have ih := ih (by omega)
    rw [Drawing.columns_succ]
    by_cases hb : b.getLsbD (7 - n) = true
    · obtain ⟨qx, hx⟩ : ∃ qx : Fin 64, (x0 + n) % 64 = qx.val := ⟨⟨_, Nat.mod_lt _ (by decide)⟩, rfl⟩
      obtain ⟨qy, hy⟩ : ∃ qy : Fin 32, y % 32 = qy.val := ⟨⟨_, Nat.mod_lt _ (by decide)⟩, rfl⟩
      have hq : (g.columns b x0 y n).1.pixel qx qy = g.1.pixel qx qy := by
        rw [Drawing.pixel_columns _ _ _ _ _ (by omega),
          decide_eq_false fun h => columnsCover_unique (by omega) h hx]
        simp
      rw [if_pos hb, Drawing.collision_plot _ hx hy, ih]
      have : (∃ px py, columnsCover b x0 y (n + 1) px py ∧ g.1.pixel px py = true) ↔
          (∃ px py, columnsCover b x0 y n px py ∧ g.1.pixel px py = true) ∨ g.1.pixel qx qy = true := by
        constructor
        · rintro ⟨px, py, hc, hp⟩
          rcases (columnsCover_succ ..).mp hc with hc | ⟨-, h1, h2⟩
          · exact .inl ⟨px, py, hc, hp⟩
          · right
            rw [show qx = px from Fin.ext (hx.symm.trans h1), show qy = py from Fin.ext (hy.symm.trans h2)]; exact hp
        · rintro (⟨px, py, hc, hp⟩ | hp)
          · exact ⟨px, py, (columnsCover_succ ..).mpr (.inl hc), hp⟩
          · exact ⟨qx, qy, (columnsCover_succ ..).mpr (.inr ⟨hb, hx, hy⟩), hp⟩
      rw [hq, Bool.eq_iff_iff]
      simp only [Bool.or_eq_true, decide_eq_true_eq, this, or_assoc]
    · rw [if_neg hb, ih, Bool.eq_iff_iff]
      simp only [Bool.or_eq_true, decide_eq_true_eq]
      refine or_congr_right ⟨?_, ?_⟩
      · rintro ⟨px, py, hc, hp⟩; exact ⟨px, py, (columnsCover_succ ..).mpr (.inl hc), hp⟩
      · rintro ⟨px, py, hc, hp⟩
        rcases (columnsCover_succ ..).mp hc with hc | ⟨h, -⟩
        · exact ⟨px, py, hc, hp⟩
        · exact absurd h hb

/-! ## All rows -/

/-- A sprite at (x0, y0) covers a pixel: some set bit of some row lands there (R233). -/
def spriteCovers (bs : List Byte) (x0 y0 : Nat) (px : Fin 64) (py : Fin 32) : Prop :=
  ∃ r c, r < bs.length ∧ c < 8 ∧ (bs.getD r 0).getLsbD (7 - c) = true ∧
    (x0 + c) % 64 = px.val ∧ (y0 + r) % 32 = py.val

theorem spriteCovers_cons (b : Byte) (bs : List Byte) (x0 y0 : Nat) (px : Fin 64) (py : Fin 32) :
    spriteCovers (b :: bs) x0 y0 px py ↔ columnsCover b x0 y0 8 px py ∨ spriteCovers bs x0 (y0 + 1) px py := by
  constructor
  · rintro ⟨r, c, hr, hc, hb, hx, hy⟩
    cases r with
    | zero => exact .inl ⟨c, hc, by simpa using hb, hx, by simpa using hy⟩
    | succ r =>
      exact .inr ⟨r, c, by simpa using hr, hc, by simpa using hb, hx, by rw [← hy]; congr 1; omega⟩
  · rintro (⟨c, hc, hb, hx, hy⟩ | ⟨r, c, hr, hc, hb, hx, hy⟩)
    · exact ⟨0, c, by simp, hc, by simpa using hb, hx, by simpa using hy⟩
    · exact ⟨r + 1, c, by simpa using hr, hc, by simpa using hb, hx, by rw [← hy]; congr 1; omega⟩

/-- Rows of one sprite are distinct modulo 32 (R234). -/
theorem spriteCovers_row {bs : List Byte} {x0 y0 : Nat} {px : Fin 64} {py : Fin 32} (hn : bs.length < 32)
    (h : spriteCovers bs x0 (y0 + 1) px py) : y0 % 32 ≠ py.val := by
  obtain ⟨r, c, hr, -, -, -, hy⟩ := h
  omega

open Classical in
/-- The blitter inverts exactly the covered pixels (R232, R233). -/
theorem Drawing.pixel_rows (g : Drawing) (x0 y0 : Nat) (bs : List Byte) (hn : bs.length ≤ 32) (px : Fin 64)
    (py : Fin 32) :
    (g.rows x0 y0 bs).1.pixel px py = (g.1.pixel px py ^^ decide (spriteCovers bs x0 y0 px py)) := by
  induction bs generalizing g y0 with
  | nil => simp [Drawing.rows, spriteCovers]
  | cons b bs ih =>
    simp only [List.length_cons] at hn
    rw [Drawing.rows, ih _ _ (by omega), Drawing.row_eq, Drawing.pixel_columns _ _ _ _ _ (by omega), Bool.xor_assoc]
    congr 1
    have key := spriteCovers_cons b bs x0 y0 px py
    by_cases h1 : columnsCover b x0 y0 8 px py
    · have h2 : ¬ spriteCovers bs x0 (y0 + 1) px py := by
        intro h2
        obtain ⟨c, -, -, -, hy⟩ := h1
        exact spriteCovers_row (by omega) h2 hy
      rw [decide_eq_true h1, decide_eq_false h2, decide_eq_true (key.mpr (.inl h1))]; rfl
    · have : spriteCovers (b :: bs) x0 y0 px py ↔ spriteCovers bs x0 (y0 + 1) px py := by
        rw [key]; exact or_iff_right h1
      simp only [decide_eq_false h1, this, Bool.false_xor]

open Classical in
/-- The blitter collides exactly when a covered pixel was set (R234). -/
theorem Drawing.collision_rows (g : Drawing) (x0 y0 : Nat) (bs : List Byte) (hn : bs.length ≤ 32) :
    (g.rows x0 y0 bs).2 =
      (g.2 || decide (∃ px py, spriteCovers bs x0 y0 px py ∧ g.1.pixel px py = true)) := by
  induction bs generalizing g y0 with
  | nil => simp [Drawing.rows, spriteCovers]
  | cons b bs ih =>
    simp only [List.length_cons] at hn
    rw [Drawing.rows, ih _ _ (by omega), Drawing.row_eq, Drawing.collision_columns _ _ _ _ _ (by omega), Bool.eq_iff_iff]
    simp only [Bool.or_eq_true, decide_eq_true_eq, or_assoc]
    have unchanged : ∀ px py, spriteCovers bs x0 (y0 + 1) px py →
        (g.columns b x0 y0 8).1.pixel px py = g.1.pixel px py := by
      intro px py h
      rw [Drawing.pixel_columns _ _ _ _ _ (by omega), decide_eq_false ?_]
      · simp
      · rintro ⟨c, -, -, -, hy⟩
        exact spriteCovers_row (by omega) h hy
    refine or_congr_right ⟨?_, ?_⟩
    · rintro (⟨px, py, hc, hp⟩ | ⟨px, py, hc, hp⟩)
      · exact ⟨px, py, (spriteCovers_cons ..).mpr (.inl hc), hp⟩
      · exact ⟨px, py, (spriteCovers_cons ..).mpr (.inr hc), by rw [← unchanged px py hc]; exact hp⟩
    · rintro ⟨px, py, hc, hp⟩
      rcases (spriteCovers_cons ..).mp hc with hc | hc
      · exact .inl ⟨px, py, hc, hp⟩
      · exact .inr ⟨px, py, hc, by rw [unchanged px py hc]; exact hp⟩

end Sys2Proof.Machine
end

