-- ==== Sys2Proof/Laws/Ops.lean ====
section
/-! SUPPORT. The commit of the execute phase, the stack, the keypad, the operands and the frame predicate: everything
each can do, said once. -/

namespace Sys2Proof.Machine

/-! ## The commit -/

/-- A body that answers a state completes the instruction with it. -/
theorem complete_ok {s t : State} {body : State → Except VmError State} (h : body s.advance = .ok t) :
    complete s body = .next t := by simp [complete, h]

/-- A body that raises an error leaves the state before the step, Fault recorded (R305). -/
theorem complete_error {s : State} {e : VmError} {body : State → Except VmError State}
    (h : body s.advance = .error e) : complete s body = .next (s.raise e) := by simp [complete, h]

/-- All an instruction can do: complete with what its body answers, or raise its body's error on the old state. -/
theorem complete_cases {s t : State} {body : State → Except VmError State} (h : complete s body = .next t) :
    body s.advance = .ok t ∨ ∃ e, body s.advance = .error e ∧ t = s.raise e := by
  unfold complete at h
  split at h
  · rename_i u hu; cases h; exact .inl hu
  · rename_i e he; cases h; exact .inr ⟨e, he, rfl⟩

/-- An instruction always answers a next state. -/
theorem complete_next (s : State) (body : State → Except VmError State) : ∃ t, complete s body = .next t := by
  unfold complete; split <;> exact ⟨_, rfl⟩

/-! ## The stack -/

theorem State.push_ok (s : State) (v : Word) (h : s.sp.val < 16) :
    s.push v = .ok { s with stack := s.stack.set s.sp.val v h, sp := ⟨s.sp.val + 1, by omega⟩ } := dif_pos h

theorem State.push_full (s : State) (v : Word) (h : s.sp = 16) : s.push v = .error .stackOverflow := by
  simp [State.push, h]

theorem State.pop_ok (s : State) (h : 0 < s.sp.val) :
    s.pop = .ok (s.stack[s.sp.val - 1]'(by omega), { s with sp := ⟨s.sp.val - 1, by omega⟩ }) := dif_pos h

theorem State.pop_empty (s : State) (h : s.sp = 0) : s.pop = .error .stackUnderflow := by simp [State.pop, h]

/-- All a push can do. -/
theorem State.push_cases (s : State) (v : Word) :
    (∃ h : s.sp.val < 16,
      s.push v = .ok { s with stack := s.stack.set s.sp.val v h, sp := ⟨s.sp.val + 1, by omega⟩ }) ∨
    (s.sp = 16 ∧ s.push v = .error .stackOverflow) := by
  by_cases h : s.sp.val < 16
  · exact .inl ⟨h, s.push_ok v h⟩
  · have : s.sp = 16 := Fin.ext (by show s.sp.val = 16; omega)
    exact .inr ⟨this, s.push_full v this⟩

/-- All a pop can do. -/
theorem State.pop_cases (s : State) :
    (∃ h : 0 < s.sp.val,
      s.pop = .ok (s.stack[s.sp.val - 1]'(by omega), { s with sp := ⟨s.sp.val - 1, by omega⟩ })) ∨
    (s.sp = 0 ∧ s.pop = .error .stackUnderflow) := by
  by_cases h : 0 < s.sp.val
  · exact .inl ⟨h, s.pop_ok h⟩
  · have : s.sp = 0 := Fin.ext (by show s.sp.val = 0; omega)
    exact .inr ⟨this, s.pop_empty this⟩

/-! ## The keypad -/

theorem mem_keyNumbers (k : Nibble) : k ∈ keyNumbers := by
  revert k; decide

/-- The wait finds no key exactly when none is pressed. -/
theorem State.lowestPressedKey_none (s : State) : s.lowestPressedKey = none ↔ s.noKeyPressed := by
  simp only [State.lowestPressedKey, List.find?_eq_none, State.noKeyPressed, Bool.not_eq_true]
  exact ⟨fun h k => h k (mem_keyNumbers k), fun h k _ => h k⟩

/-- The key the wait finds is pressed, and every lower one is not. -/
theorem State.lowestPressedKey_some (s : State) (k : Nibble) :
    s.lowestPressedKey = some k ↔ s.getKey k = true ∧ ∀ j : Nibble, j.toNat < k.toNat → s.getKey j = false := by
  have hlen : keyNumbers.length = 16 := rfl
  have hget : ∀ (n : Nat) (h : n < keyNumbers.length), (keyNumbers[n]).toNat = n := by decide
  have hpos : ∀ j : Nibble, keyNumbers[j.toNat]'(by have := j.isLt; omega) = j :=
    fun j => BitVec.eq_of_toNat_eq (hget _ _)
  rw [State.lowestPressedKey, List.find?_eq_some_iff_getElem]
  constructor
  · rintro ⟨hk, n, hn, he, hl⟩
    refine ⟨hk, fun j hj => ?_⟩
    have hnk : n = k.toNat := by rw [← he, hget]
    have := hl j.toNat (by omega)
    rw [hpos] at this
    simpa using this
  · rintro ⟨hk, hl⟩
    refine ⟨hk, k.toNat, by have := k.isLt; omega, hpos k, fun j hj => ?_⟩
    have hjk : (keyNumbers[j]).toNat < k.toNat := by rw [hget]; exact hj
    simpa using hl _ hjk

/-! ## Operands -/

@[simp] theorem toNat_addrImm (nnn : Addr12) : (addrImm nnn).toNat = nnn.toNat := by
  have := nnn.isLt; simp [addrImm]; omega

@[simp] theorem toNat_wideV (s : State) (x : Nibble) : (wideV s x).toNat = (s.getV x).toNat := by
  have := (s.getV x).isLt; simp [wideV]; omega

@[simp] theorem toNat_lowNibble (s : State) (x : Nibble) : (lowNibble s x).toNat = (s.getV x).toNat % 16 := by
  simp [lowNibble]

@[simp] theorem indexAddr_advance (s : State) (k : Nat) : indexAddr s.advance k = indexAddr s k := rfl
@[simp] theorem wideV_advance (s : State) (x : Nibble) : wideV s.advance x = wideV s x := rfl
@[simp] theorem lowNibble_advance (s : State) (x : Nibble) : lowNibble s.advance x = lowNibble s x := rfl
@[simp] theorem shiftSource_advance (s : State) (x y : Nibble) : shiftSource s.advance x y = shiftSource s x y := rfl
@[simp] theorem dumpedBytes_advance (s : State) (x : Nibble) : dumpedBytes s.advance x = dumpedBytes s x := rfl
@[simp] theorem loadedRegs_advance (s : State) (x : Nibble) : loadedRegs s.advance x = loadedRegs s x := rfl
@[simp] theorem indexAfter_advance (s : State) (x : Nibble) : indexAfter s.advance x = indexAfter s x := rfl

@[simp] theorem dumpedBytes_length (s : State) (x : Nibble) : (dumpedBytes s x).length = x.toNat + 1 := by
  have := x.isLt; simp [dumpedBytes]; omega

/-- Byte k of a register dump is register k (R210). -/
theorem dumpedBytes_getD (s : State) (x k : Nibble) (h : k.toNat ≤ x.toNat) :
    (dumpedBytes s x).getD k.toNat 0 = s.getV k := by
  have hk := k.isLt
  rw [List.getD_eq_getElem?_getD, List.getElem?_eq_getElem (by simp; omega)]
  simp [dumpedBytes, State.getV]

/-- A loaded register is its byte of RAM, a register above X its old value (R213). -/
theorem getV_loadedRegs (s : State) (x y : Nibble) :
    (loadedRegs s x)[y.toNat]'y.isLt =
      if y.toNat ≤ x.toNat then s.readByte (indexAddr s y.toNat) else s.getV y := by
  simp [loadedRegs, State.getV]

@[simp] theorem bcdDigits_length (v : Byte) : (bcdDigits v).length = 3 := rfl

/-! ## The frame predicate -/

/-- A frame composes: what neither transition touches, both leave alone. -/
theorem SameExcept.trans {may : Part → Prop} {s t u : State} (h1 : SameExcept may s t) (h2 : SameExcept may t u) :
    SameExcept may s u := by
  intro p hp
  have a := h1 p hp
  have b := h2 p hp
  cases p <;> exact Eq.trans b a

theorem SameExcept.refl (may : Part → Prop) (s : State) : SameExcept may s s := by
  intro p _; cases p <;> rfl

theorem SameExcept.mono {may more : Part → Prop} {s t : State} (h : SameExcept may s t) (hm : ∀ p, may p → more p) :
    SameExcept more s t := fun p hp => h p fun hmp => hp (hm p hmp)

end Sys2Proof.Machine
end

