-- ==== Sys2Proof/Laws/Exec.lean ====
section
/-! SUPPORT. What exec answers for each instruction, and the cases of a step. -/

namespace Sys2Proof.Machine

/-! ## Instructions that always complete -/

theorem exec_cls (s : State) : exec .cls s = .next (s.advance.setDisp Display.clear) := rfl
theorem exec_jp (nnn : Addr12) (s : State) : exec (.jp nnn) s = .next (s.advance.setPc (addrImm nnn)) := rfl
theorem exec_jpV0 (nnn : Addr12) (s : State) :
    exec (.jpV0 nnn) s = .next (s.advance.setPc (addrImm nnn + wideV s 0)) := rfl
theorem exec_seImm (x : Nibble) (nn : Byte) (s : State) :
    exec (.seImm x nn) s = .next (s.advance.skip (decide (s.getV x = nn))) := rfl
theorem exec_sneImm (x : Nibble) (nn : Byte) (s : State) :
    exec (.sneImm x nn) s = .next (s.advance.skip (decide (s.getV x ≠ nn))) := rfl
theorem exec_seReg (x y : Nibble) (s : State) :
    exec (.seReg x y) s = .next (s.advance.skip (decide (s.getV x = s.getV y))) := rfl
theorem exec_sneReg (x y : Nibble) (s : State) :
    exec (.sneReg x y) s = .next (s.advance.skip (decide (s.getV x ≠ s.getV y))) := rfl
theorem exec_ldImm (x : Nibble) (nn : Byte) (s : State) : exec (.ldImm x nn) s = .next (s.advance.setV x nn) := rfl
theorem exec_addImm (x : Nibble) (nn : Byte) (s : State) :
    exec (.addImm x nn) s = .next (s.advance.setV x (s.getV x + nn)) := rfl
theorem exec_ldReg (x y : Nibble) (s : State) : exec (.ldReg x y) s = .next (s.advance.setV x (s.getV y)) := rfl
theorem exec_orReg (x y : Nibble) (s : State) :
    exec (.orReg x y) s = .next (s.advance.setV x (s.getV x ||| s.getV y)) := rfl
theorem exec_andReg (x y : Nibble) (s : State) :
    exec (.andReg x y) s = .next (s.advance.setV x (s.getV x &&& s.getV y)) := rfl
theorem exec_xorReg (x y : Nibble) (s : State) :
    exec (.xorReg x y) s = .next (s.advance.setV x (s.getV x ^^^ s.getV y)) := rfl
theorem exec_addReg (x y : Nibble) (s : State) :
    exec (.addReg x y) s =
      .next (s.advance.setVThenFlag x (s.getV x + s.getV y) (addFlag (s.getV x) (s.getV y))) := rfl
theorem exec_sub (x y : Nibble) (s : State) :
    exec (.sub x y) s = .next (s.advance.setVThenFlag x (s.getV x - s.getV y)
      (subFlag s.config.subFlagPolarity (s.getV x) (s.getV y))) := rfl
theorem exec_subn (x y : Nibble) (s : State) :
    exec (.subn x y) s = .next (s.advance.setVThenFlag x (s.getV y - s.getV x)
      (subFlag s.config.subFlagPolarity (s.getV y) (s.getV x))) := rfl
theorem exec_shr (x y : Nibble) (s : State) :
    exec (.shr x y) s =
      .next (s.advance.setVThenFlag x (shiftSource s x y >>> 1) (shrFlag (shiftSource s x y))) := rfl
theorem exec_shl (x y : Nibble) (s : State) :
    exec (.shl x y) s =
      .next (s.advance.setVThenFlag x (shiftSource s x y <<< 1) (shlFlag (shiftSource s x y))) := rfl
theorem exec_ldI (nnn : Addr12) (s : State) : exec (.ldI nnn) s = .next (s.advance.setI (addrImm nnn)) := rfl
theorem exec_addI (x : Nibble) (s : State) : exec (.addI x) s = .next (s.advance.setI (s.i + wideV s x)) := rfl
theorem exec_ldF (x : Nibble) (s : State) :
    exec (.ldF x) s = .next (s.advance.setI (glyphAddr s.config (lowNibble s x))) := rfl
theorem exec_rnd (x : Nibble) (nn : Byte) (s : State) :
    exec (.rnd x nn) s = .next (s.advance.countDraw.setV x (s.draw &&& nn)) := rfl
theorem exec_skp (x : Nibble) (s : State) :
    exec (.skp x) s = .next (s.advance.skip (s.getKey (lowNibble s x))) := rfl
theorem exec_sknp (x : Nibble) (s : State) :
    exec (.sknp x) s = .next (s.advance.skip (!s.getKey (lowNibble s x))) := rfl
theorem exec_ldVxDt (x : Nibble) (s : State) : exec (.ldVxDt x) s = .next (s.advance.setV x s.dt) := rfl
theorem exec_ldDt (x : Nibble) (s : State) : exec (.ldDt x) s = .next (s.advance.setDt (s.getV x)) := rfl
theorem exec_ldSt (x : Nibble) (s : State) : exec (.ldSt x) s = .next (s.advance.setSt (s.getV x)) := rfl

theorem exec_ldVxK_some (x : Nibble) {s : State} {k : Nibble} (h : s.lowestPressedKey = some k) :
    exec (.ldVxK x) s = .next ((s.advance.setV x (k.setWidth 8)).setAwaitingKey false) := by
  unfold exec execLdVxK
  exact complete_ok (by simp [h])

theorem exec_ldVxK_none (x : Nibble) {s : State} (h : s.lowestPressedKey = none) :
    exec (.ldVxK x) s = .next (s.setAwaitingKey true) := by
  unfold exec execLdVxK
  refine complete_ok (t := s.setAwaitingKey true) ?_
  have : s.advance.setPc s.pc = s := rfl
  simp [h, this]

/-! ## Instructions that may raise an error -/

theorem exec_call_ok (nnn : Addr12) (s : State) (h : s.sp.val < 16) :
    exec (.call nnn) s = .next ({ s with
      stack := s.stack.set s.sp.val (s.pc + 2) h, sp := ⟨s.sp.val + 1, by omega⟩, pc := addrImm nnn }) := by
  unfold exec execCall
  exact complete_ok (by simp only [State.push_ok s.advance s.advance.pc h]; rfl)

theorem exec_call_full (nnn : Addr12) (s : State) (h : s.sp = 16) :
    exec (.call nnn) s = .next (s.raise .stackOverflow) := by
  unfold exec execCall
  exact complete_error (by simp only [State.push_full s.advance s.advance.pc h])

theorem exec_ret_ok (s : State) (h : 0 < s.sp.val) :
    exec .ret s = .next ({ s with sp := ⟨s.sp.val - 1, by omega⟩, pc := s.stack[s.sp.val - 1]'(by omega) }) := by
  unfold exec execRet
  exact complete_ok (by simp only [State.pop_ok s.advance h]; rfl)

theorem exec_ret_empty (s : State) (h : s.sp = 0) : exec .ret s = .next (s.raise .stackUnderflow) := by
  unfold exec execRet
  exact complete_error (by simp only [State.pop_empty s.advance h])

theorem exec_ldB_ok (x : Nibble) {s : State} (h : s.i.toNat + 2 ≤ 0xFFF) :
    exec (.ldB x) s = .next (s.advance.writeBytes s.i.toNat (bcdDigits (s.getV x))) := by
  unfold exec execLdB
  exact complete_ok (by simp [indexAddr, checkRange_ok (base := s.i.toNat) (n := 3) (by omega)])

theorem exec_ldB_error (x : Nibble) {s : State} (h : 0xFFF < s.i.toNat + 2) :
    exec (.ldB x) s = .next (s.raise (.memoryAccessOutOfBounds (max s.i.toNat 0x1000))) := by
  unfold exec execLdB
  exact complete_error (by simp [indexAddr, checkRange_error (base := s.i.toNat) (n := 3) (by omega) (by omega)])

theorem exec_ldStore_ok (x : Nibble) {s : State} (h : s.i.toNat + x.toNat ≤ 0xFFF) :
    exec (.ldStore x) s =
      .next ((s.advance.writeBytes s.i.toNat (dumpedBytes s x)).setI (indexAfter s x)) := by
  unfold exec execLdStore
  exact complete_ok (by simp [indexAddr, checkRange_ok (base := s.i.toNat) (n := x.toNat + 1) (by omega)])

theorem exec_ldStore_error (x : Nibble) {s : State} (h : 0xFFF < s.i.toNat + x.toNat) :
    exec (.ldStore x) s = .next (s.raise (.memoryAccessOutOfBounds (max s.i.toNat 0x1000))) := by
  unfold exec execLdStore
  exact complete_error (by simp [indexAddr, checkRange_error (base := s.i.toNat) (n := x.toNat + 1) (by omega) (by omega)])

theorem exec_ldLoad_ok (x : Nibble) {s : State} (h : s.i.toNat + x.toNat ≤ 0xFFF) :
    exec (.ldLoad x) s = .next ({ s with v := loadedRegs s x, pc := s.pc + 2, i := indexAfter s x }) := by
  unfold exec execLdLoad
  exact complete_ok (by
    simp only [indexAddr, Nat.add_zero, State.advance_i,
      checkRange_ok (base := s.i.toNat) (n := x.toNat + 1) (by omega)]
    rfl)

theorem exec_ldLoad_error (x : Nibble) {s : State} (h : 0xFFF < s.i.toNat + x.toNat) :
    exec (.ldLoad x) s = .next (s.raise (.memoryAccessOutOfBounds (max s.i.toNat 0x1000))) := by
  unfold exec execLdLoad
  exact complete_error (by simp [indexAddr, checkRange_error (base := s.i.toNat) (n := x.toNat + 1) (by omega) (by omega)])

/-- The framebuffer and collision DRW computes. -/
def drawn (s : State) (x y n : Nibble) : Drawing :=
  Drawing.rows (s.disp, false) (s.getV x).toNat (s.getV y).toNat (s.readBytes s.i.toNat n.toNat)

theorem exec_drw_ok (x y n : Nibble) {s : State} (h : n = 0 ∨ s.i.toNat + n.toNat ≤ 0x1000) :
    exec (.drw x y n) s =
      .next ((s.advance.setDisp (drawn s x y n).1).setV 0xF (collisionFlag (drawn s x y n).2)) := by
  unfold exec execDrw
  exact complete_ok (by
    have h' : n.toNat = 0 ∨ s.i.toNat + n.toNat ≤ 0x1000 := h.imp (fun e => by simp [e]) id
    simp [indexAddr, checkRange_ok (base := s.i.toNat) h', drawn])

theorem exec_drw_error (x y n : Nibble) {s : State} (h0 : n ≠ 0) (h : 0x1000 < s.i.toNat + n.toNat) :
    exec (.drw x y n) s = .next (s.raise (.memoryAccessOutOfBounds (max s.i.toNat 0x1000))) := by
  unfold exec execDrw
  exact complete_error (by
    have h' : n.toNat ≠ 0 := fun e => h0 (BitVec.eq_of_toNat_eq e)
    simp [indexAddr, checkRange_error (base := s.i.toNat) h' h])

/-! ## The step -/

theorem step_faulted {s : State} {e : VmError} (h : s.fault = some e) : step s = .next s := by simp [step, h]

theorem step_fetch_error {s : State} (hf : s.fault = none) (h : 0xFFE < s.pc.toNat) :
    step s = .next (s.raise (.memoryAccessOutOfBounds (max s.pc.toNat 0x1000))) := by
  simp [step, hf, State.fetch_eq, show ¬ s.pc.toNat ≤ 0xFFE by omega]

theorem step_unknown {s : State} {op : Word} {e : DecodeError} (hf : s.fault = none) (ho : s.fetch = .ok op)
    (hd : decode op = .error e) : step s = .next (s.raise (.unknownOpcode op)) := by simp [step, hf, ho, hd]

theorem step_exec {s : State} {op : Word} {i : Instr} (hf : s.fault = none) (ho : s.fetch = .ok op)
    (hd : decode op = .ok i) : step s = exec i s := by simp [step, hf, ho, hd]

/-- Every instruction answers a next state. -/
theorem exec_next (i : Instr) (s : State) : ∃ t, exec i s = .next t := by
  cases i <;> simp only [exec, execCls, execRet, execJp, execCall, execSeImm, execSneImm, execSeReg, execLdImm, execAddImm,
    execLdReg, execOr, execAnd, execXor, execAddReg, execSub, execShr, execSubn, execShl, execSneReg, execLdI, execJpV0,
    execRnd, execDrw, execSkp, execSknp, execLdVxDt, execLdVxK, execLdDt, execLdSt, execAddI, execLdF, execLdB,
    execLdStore, execLdLoad] <;> exact complete_next _ _

/-- All a step can do: repeat a recorded error, raise a fetch or decode error, or run the decoded instruction. -/
theorem step_cases {s t : State} (h : step s = .next t) :
    (∃ e, s.fault = some e ∧ t = s) ∨
    (s.fault = none ∧ 0xFFE < s.pc.toNat ∧ t = s.raise (.memoryAccessOutOfBounds (max s.pc.toNat 0x1000))) ∨
    (∃ op e, s.fault = none ∧ s.pc.toNat ≤ 0xFFE ∧ s.fetch = .ok op ∧ decode op = .error e ∧
      t = s.raise (.unknownOpcode op)) ∨
    (∃ op i, s.fault = none ∧ s.pc.toNat ≤ 0xFFE ∧ s.fetch = .ok op ∧ decode op = .ok i ∧ exec i s = .next t) := by
  cases hf : s.fault with
  | some e => rw [step_faulted hf] at h; cases h; exact .inl ⟨e, rfl, rfl⟩
  | none =>
    by_cases hp : s.pc.toNat ≤ 0xFFE
    · have ho := s.fetch_eq
      rw [if_pos hp] at ho
      cases hd : decode (wordOfBytes (s.readByte s.pc.toNat) (s.readByte (s.pc.toNat + 1))) with
      | error e =>
        rw [step_unknown hf ho hd] at h; cases h
        exact .inr (.inr (.inl ⟨_, e, rfl, hp, ho, hd, rfl⟩))
      | ok i =>
        rw [step_exec hf ho hd] at h
        exact .inr (.inr (.inr ⟨_, i, rfl, hp, ho, hd, h⟩))
    · rw [step_fetch_error hf (by omega)] at h; cases h
      exact .inr (.inl ⟨rfl, by omega, rfl⟩)

end Sys2Proof.Machine
end

