-- ==== Sys2Proof/Laws/PerInstr.lean ====
section
/-! SUPPORT. The per-instruction family FixedBits: the encoder sets every fixed bit of an instruction's row of
spec/opcode_table.json to the row's value. -/

namespace Sys2Proof.Laws.FixedBits

/-- The word of the instruction agrees with its row: `word & mask = match`. -/
abbrev Statement (i : Instr) : Prop := encode i &&& (fixedBits i).1 = (fixedBits i).2

/-- A mask acts on each part of an appended word. -/
theorem and_append {m n : Nat} (a a' : BitVec m) (b b' : BitVec n) :
    (a ++ b) &&& (a' ++ b') = (a &&& a') ++ (b &&& b') := by
  ext k hk
  simp only [BitVec.getElem_and, BitVec.getElem_append]
  split <;> rfl

/-- A mask of whole nibbles acts on each nibble of a word. -/
theorem and_nibbles (a b c d a' b' c' d' : Nibble) :
    (formatXY a b c d &&& formatXY a' b' c' d') = formatXY (a &&& a') (b &&& b') (c &&& c') (d &&& d') := by
  have h : (a ++ b ++ c) &&& (a' ++ b' ++ c') = (a &&& a') ++ (b &&& b') ++ (c &&& c') := by
    rw [and_append, and_append]
  exact (and_append _ _ d d').trans (congrArg (· ++ (d &&& d')) h)

theorem and_all (a : Nibble) : a &&& 15#4 = a := BitVec.and_allOnes
theorem and_none (a : Nibble) : a &&& 0#4 = 0#4 := BitVec.and_zero

/-- A word of two nibbles and a byte, as four nibbles. -/
theorem formatXB_nibbles (o x : Nibble) (nn : Byte) :
    formatXB o x nn = formatXY o x (nn.extractLsb' 4 4) (nn.extractLsb' 0 4) := by
  apply BitVec.eq_of_toNat_eq
  rw [toNat_formatXB, toNat_formatXY]; simp [Nat.shiftRight_eq_div_pow]; omega

/-- A word of a nibble and an address, as four nibbles. -/
theorem formatA_nibbles (o : Nibble) (nnn : Addr12) :
    formatA o nnn = formatXY o (nnn.extractLsb' 8 4) (nnn.extractLsb' 4 4) (nnn.extractLsb' 0 4) := by
  apply BitVec.eq_of_toNat_eq
  rw [toNat_formatA, toNat_formatXY]; simp [Nat.shiftRight_eq_div_pow]; omega

theorem family (o x y n : Nibble) : formatXY o x y n &&& 0xF000 = formatXY o 0 0 0 := by
  have h := and_nibbles o x y n 15#4 0#4 0#4 0#4
  simp only [and_all, and_none] at h
  exact h

theorem familyN (o x y n : Nibble) : formatXY o x y n &&& 0xF00F = formatXY o 0 0 n := by
  have h := and_nibbles o x y n 15#4 0#4 0#4 15#4
  simp only [and_all, and_none] at h
  exact h

theorem familyNN (o x y n : Nibble) : formatXY o x y n &&& 0xF0FF = formatXY o 0 y n := by
  have h := and_nibbles o x y n 15#4 0#4 15#4 15#4
  simp only [and_all, and_none] at h
  exact h

theorem formatA_family (o : Nibble) (nnn : Addr12) : formatA o nnn &&& 0xF000 = formatXY o 0 0 0 := by
  rw [formatA_nibbles, family]
theorem formatXB_family (o x : Nibble) (nn : Byte) : formatXB o x nn &&& 0xF000 = formatXY o 0 0 0 := by
  rw [formatXB_nibbles, family]
theorem formatX_familyNN (o x : Nibble) (b : Byte) :
    formatX o x b &&& 0xF0FF = formatXY o 0 (b.extractLsb' 4 4) (b.extractLsb' 0 4) := by
  rw [formatX_eq, formatXB_nibbles, familyNN]

end Sys2Proof.Laws.FixedBits

theorem Sys2Proof.Laws.FixedBits.cls : Sys2Proof.Laws.FixedBits.Statement .cls := by decide
theorem Sys2Proof.Laws.FixedBits.ret : Sys2Proof.Laws.FixedBits.Statement .ret := by decide
theorem Sys2Proof.Laws.FixedBits.jp (nnn : Sys2Proof.Addr12) : Sys2Proof.Laws.FixedBits.Statement (.jp nnn) :=
  (Sys2Proof.Laws.FixedBits.formatA_family _ nnn).trans rfl
theorem Sys2Proof.Laws.FixedBits.call (nnn : Sys2Proof.Addr12) : Sys2Proof.Laws.FixedBits.Statement (.call nnn) :=
  (Sys2Proof.Laws.FixedBits.formatA_family _ nnn).trans rfl
theorem Sys2Proof.Laws.FixedBits.seImm (x : Sys2Proof.Nibble) (nn : Sys2Proof.Byte) :
    Sys2Proof.Laws.FixedBits.Statement (.seImm x nn) := (Sys2Proof.Laws.FixedBits.formatXB_family _ x nn).trans rfl
theorem Sys2Proof.Laws.FixedBits.sneImm (x : Sys2Proof.Nibble) (nn : Sys2Proof.Byte) :
    Sys2Proof.Laws.FixedBits.Statement (.sneImm x nn) := (Sys2Proof.Laws.FixedBits.formatXB_family _ x nn).trans rfl
theorem Sys2Proof.Laws.FixedBits.seReg (x y : Sys2Proof.Nibble) : Sys2Proof.Laws.FixedBits.Statement (.seReg x y) :=
  (Sys2Proof.Laws.FixedBits.familyN _ x y _).trans rfl
theorem Sys2Proof.Laws.FixedBits.ldImm (x : Sys2Proof.Nibble) (nn : Sys2Proof.Byte) :
    Sys2Proof.Laws.FixedBits.Statement (.ldImm x nn) := (Sys2Proof.Laws.FixedBits.formatXB_family _ x nn).trans rfl
theorem Sys2Proof.Laws.FixedBits.addImm (x : Sys2Proof.Nibble) (nn : Sys2Proof.Byte) :
    Sys2Proof.Laws.FixedBits.Statement (.addImm x nn) := (Sys2Proof.Laws.FixedBits.formatXB_family _ x nn).trans rfl
theorem Sys2Proof.Laws.FixedBits.ldReg (x y : Sys2Proof.Nibble) : Sys2Proof.Laws.FixedBits.Statement (.ldReg x y) :=
  (Sys2Proof.Laws.FixedBits.familyN _ x y _).trans rfl
theorem Sys2Proof.Laws.FixedBits.orReg (x y : Sys2Proof.Nibble) : Sys2Proof.Laws.FixedBits.Statement (.orReg x y) :=
  (Sys2Proof.Laws.FixedBits.familyN _ x y _).trans rfl
theorem Sys2Proof.Laws.FixedBits.andReg (x y : Sys2Proof.Nibble) : Sys2Proof.Laws.FixedBits.Statement (.andReg x y) :=
  (Sys2Proof.Laws.FixedBits.familyN _ x y _).trans rfl
theorem Sys2Proof.Laws.FixedBits.xorReg (x y : Sys2Proof.Nibble) : Sys2Proof.Laws.FixedBits.Statement (.xorReg x y) :=
  (Sys2Proof.Laws.FixedBits.familyN _ x y _).trans rfl
theorem Sys2Proof.Laws.FixedBits.addReg (x y : Sys2Proof.Nibble) : Sys2Proof.Laws.FixedBits.Statement (.addReg x y) :=
  (Sys2Proof.Laws.FixedBits.familyN _ x y _).trans rfl
theorem Sys2Proof.Laws.FixedBits.sub (x y : Sys2Proof.Nibble) : Sys2Proof.Laws.FixedBits.Statement (.sub x y) :=
  (Sys2Proof.Laws.FixedBits.familyN _ x y _).trans rfl
theorem Sys2Proof.Laws.FixedBits.shr (x y : Sys2Proof.Nibble) : Sys2Proof.Laws.FixedBits.Statement (.shr x y) :=
  (Sys2Proof.Laws.FixedBits.familyN _ x y _).trans rfl
theorem Sys2Proof.Laws.FixedBits.subn (x y : Sys2Proof.Nibble) : Sys2Proof.Laws.FixedBits.Statement (.subn x y) :=
  (Sys2Proof.Laws.FixedBits.familyN _ x y _).trans rfl
theorem Sys2Proof.Laws.FixedBits.shl (x y : Sys2Proof.Nibble) : Sys2Proof.Laws.FixedBits.Statement (.shl x y) :=
  (Sys2Proof.Laws.FixedBits.familyN _ x y _).trans rfl
theorem Sys2Proof.Laws.FixedBits.sneReg (x y : Sys2Proof.Nibble) : Sys2Proof.Laws.FixedBits.Statement (.sneReg x y) :=
  (Sys2Proof.Laws.FixedBits.familyN _ x y _).trans rfl
theorem Sys2Proof.Laws.FixedBits.ldI (nnn : Sys2Proof.Addr12) : Sys2Proof.Laws.FixedBits.Statement (.ldI nnn) :=
  (Sys2Proof.Laws.FixedBits.formatA_family _ nnn).trans rfl
theorem Sys2Proof.Laws.FixedBits.jpV0 (nnn : Sys2Proof.Addr12) : Sys2Proof.Laws.FixedBits.Statement (.jpV0 nnn) :=
  (Sys2Proof.Laws.FixedBits.formatA_family _ nnn).trans rfl
theorem Sys2Proof.Laws.FixedBits.rnd (x : Sys2Proof.Nibble) (nn : Sys2Proof.Byte) :
    Sys2Proof.Laws.FixedBits.Statement (.rnd x nn) := (Sys2Proof.Laws.FixedBits.formatXB_family _ x nn).trans rfl
theorem Sys2Proof.Laws.FixedBits.drw (x y n : Sys2Proof.Nibble) : Sys2Proof.Laws.FixedBits.Statement (.drw x y n) :=
  (Sys2Proof.Laws.FixedBits.family _ x y n).trans rfl
theorem Sys2Proof.Laws.FixedBits.skp (x : Sys2Proof.Nibble) : Sys2Proof.Laws.FixedBits.Statement (.skp x) :=
  (Sys2Proof.Laws.FixedBits.formatX_familyNN _ x _).trans rfl
theorem Sys2Proof.Laws.FixedBits.sknp (x : Sys2Proof.Nibble) : Sys2Proof.Laws.FixedBits.Statement (.sknp x) :=
  (Sys2Proof.Laws.FixedBits.formatX_familyNN _ x _).trans rfl
theorem Sys2Proof.Laws.FixedBits.ldVxDt (x : Sys2Proof.Nibble) : Sys2Proof.Laws.FixedBits.Statement (.ldVxDt x) :=
  (Sys2Proof.Laws.FixedBits.formatX_familyNN _ x _).trans rfl
theorem Sys2Proof.Laws.FixedBits.ldVxK (x : Sys2Proof.Nibble) : Sys2Proof.Laws.FixedBits.Statement (.ldVxK x) :=
  (Sys2Proof.Laws.FixedBits.formatX_familyNN _ x _).trans rfl
theorem Sys2Proof.Laws.FixedBits.ldDt (x : Sys2Proof.Nibble) : Sys2Proof.Laws.FixedBits.Statement (.ldDt x) :=
  (Sys2Proof.Laws.FixedBits.formatX_familyNN _ x _).trans rfl
theorem Sys2Proof.Laws.FixedBits.ldSt (x : Sys2Proof.Nibble) : Sys2Proof.Laws.FixedBits.Statement (.ldSt x) :=
  (Sys2Proof.Laws.FixedBits.formatX_familyNN _ x _).trans rfl
theorem Sys2Proof.Laws.FixedBits.addI (x : Sys2Proof.Nibble) : Sys2Proof.Laws.FixedBits.Statement (.addI x) :=
  (Sys2Proof.Laws.FixedBits.formatX_familyNN _ x _).trans rfl
theorem Sys2Proof.Laws.FixedBits.ldF (x : Sys2Proof.Nibble) : Sys2Proof.Laws.FixedBits.Statement (.ldF x) :=
  (Sys2Proof.Laws.FixedBits.formatX_familyNN _ x _).trans rfl
theorem Sys2Proof.Laws.FixedBits.ldB (x : Sys2Proof.Nibble) : Sys2Proof.Laws.FixedBits.Statement (.ldB x) :=
  (Sys2Proof.Laws.FixedBits.formatX_familyNN _ x _).trans rfl
theorem Sys2Proof.Laws.FixedBits.ldStore (x : Sys2Proof.Nibble) : Sys2Proof.Laws.FixedBits.Statement (.ldStore x) :=
  (Sys2Proof.Laws.FixedBits.formatX_familyNN _ x _).trans rfl
theorem Sys2Proof.Laws.FixedBits.ldLoad (x : Sys2Proof.Nibble) : Sys2Proof.Laws.FixedBits.Statement (.ldLoad x) :=
  (Sys2Proof.Laws.FixedBits.formatX_familyNN _ x _).trans rfl
end

