-- ==== Sys2Proof/Tests/Slice0.lean ====
section
/-! SUPPORT. Tests: ill-formed terms refused, words written out from the patterns of R95, single steps taken from
spec/95_test_vectors.md (each named by its id there), and a witness for the hypotheses of every statement. -/

namespace Sys2Proof.Tests

open Sys2Proof Sys2Proof.Machine

/-- The reset state with one instruction word at 0x200, as the test vectors start. -/
def vm (w : Word) : State := State.reset.writeBytes 0x200 [highByte w, lowByte w]

/-- The reset state of a configuration with one word at 0x200. -/
def vmWith (c : Config) (w : Word) : State := (State.resetWith c).writeBytes 0x200 [highByte w, lowByte w]

/-- The legacy configuration of R45. -/
def legacy : Config := { Config.default with quirkMode := .legacy }

/-- The borrow polarity of R46. -/
def borrow : Config := { Config.default with subFlagPolarity := .borrow }

/-- What one step leaves, as far as a test looks at it. -/
def after {α : Type} (f : State → α) (s : State) : Option α :=
  match step s with
  | .next t => some (f t)
  | .fault _ => none
  | .refused _ => none

/-- What a host operation leaves and answers, as far as a test looks at it. -/
def afterOp {α : Type} (f : State → Reply → α) (op : HostOp) (s : State) : Option α :=
  match perform op s with
  | .next (t, r) => some (f t r)
  | .fault _ => none
  | .refused _ => none

/-! ## WellFormed: what the checks refuse and accept (R41, R332) -/

theorem test_wf_config_top : { Config.default with fontBase := 0x1B0 }.wellFormed = true := by decide
theorem test_wf_config_refused : { Config.default with fontBase := 0x1B1 }.wellFormed = false := by decide
theorem test_wf_setKey_top : (HostOp.setKey 15 true).wellFormed = true := by decide
theorem test_wf_setKey_refused : (HostOp.setKey 16 true).wellFormed = false := by decide
theorem test_wf_reset_refused : (HostOp.reset { Config.default with fontBase := 0x1B1 }).wellFormed = false := by decide
/-- `perform` refuses by name exactly what the check refuses. -/
theorem test_perform_refuses :
    afterOp (fun _ _ => ()) (.setKey 16 true) State.reset = none ∧
    afterOp (fun _ _ => ()) (.reset { Config.default with fontBase := 0x1B1 }) State.reset = none := by decide

/-! ## Decode: one word for each constructor, written from the pattern column of R95 -/

theorem test_decode_bits :
    decode 0b0001001000110100 = .ok (.jp 0x234) ∧ decode 0b1000111100010100 = .ok (.addReg 0xF 0x1) ∧
    decode 0b1111001000011110 = .ok (.addI 0x2) ∧ decode 0b1101000100100011 = .ok (.drw 0x1 0x2 0x3) ∧
    decode 0b1100001100001111 = .ok (.rnd 0x3 0x0F) ∧ decode 0b1110010110011110 = .ok (.skp 0x5) ∧
    decode 0b1111010000010101 = .ok (.ldDt 0x4) := by decide
theorem test_decode_flow :
    decode 0x00EE = .ok .ret ∧ decode 0x1FFF = .ok (.jp 0xFFF) ∧ decode 0x2ABC = .ok (.call 0xABC) ∧
    decode 0x3310 = .ok (.seImm 0x3 0x10) ∧ decode 0x4AFE = .ok (.sneImm 0xA 0xFE) ∧
    decode 0x5120 = .ok (.seReg 0x1 0x2) ∧ decode 0x9120 = .ok (.sneReg 0x1 0x2) ∧
    decode 0xB300 = .ok (.jpV0 0x300) := by decide
theorem test_decode_alu :
    decode 0x6A42 = .ok (.ldImm 0xA 0x42) ∧ decode 0x7101 = .ok (.addImm 0x1 0x01) ∧
    decode 0x8120 = .ok (.ldReg 0x1 0x2) ∧ decode 0x8121 = .ok (.orReg 0x1 0x2) ∧
    decode 0x8122 = .ok (.andReg 0x1 0x2) ∧ decode 0x8123 = .ok (.xorReg 0x1 0x2) ∧
    decode 0x8124 = .ok (.addReg 0x1 0x2) ∧ decode 0x8125 = .ok (.sub 0x1 0x2) ∧
    decode 0x8126 = .ok (.shr 0x1 0x2) ∧ decode 0x8127 = .ok (.subn 0x1 0x2) ∧
    decode 0x812E = .ok (.shl 0x1 0x2) := by decide
theorem test_decode_index :
    decode 0xA200 = .ok (.ldI 0x200) ∧ decode 0xF21E = .ok (.addI 0x2) ∧ decode 0xF029 = .ok (.ldF 0x0) ∧
    decode 0xFA33 = .ok (.ldB 0xA) ∧ decode 0xF155 = .ok (.ldStore 0x1) ∧ decode 0xFF65 = .ok (.ldLoad 0xF) := by decide
theorem test_decode_others :
    decode 0x00E0 = .ok .cls ∧ decode 0xD12F = .ok (.drw 0x1 0x2 0xF) ∧ decode 0xCF80 = .ok (.rnd 0xF 0x80) ∧
    decode 0xE59E = .ok (.skp 0x5) ∧ decode 0xE5A1 = .ok (.sknp 0x5) ∧ decode 0xF407 = .ok (.ldVxDt 0x4) ∧
    decode 0xF30A = .ok (.ldVxK 0x3) ∧ decode 0xF415 = .ok (.ldDt 0x4) ∧ decode 0xF418 = .ok (.ldSt 0x4) := by decide
/-- Vectors F-14, F-17, A-35, K-10, E-2, E-3. -/
theorem test_decode_unknown :
    [0x5121#16, 0x912F#16, 0x8128#16, 0x800F#16, 0x8FFD#16, 0xE5A2#16, 0xE000#16, 0x0123#16, 0x00E1#16, 0x00FF#16,
      0x0000#16, 0xF000#16, 0xF0FF#16, 0xF016#16, 0xF066#16].all
        (fun op => decide (decode op = .error (.unknown op))) = true := by decide
/-- Too few bytes for an opcode are refused by name; the bytes after the first two are left over (R90). -/
theorem test_decodeBytes :
    decodeBytes [] = .error .truncated ∧ decodeBytes [0x12] = .error .truncated ∧
    decodeBytes [0x61, 0x23, 0x99] = .ok (.ldImm 0x1 0x23, [0x99]) := by decide
theorem test_decodeTableWord : decodeTableWord 16 0x8124 = some (.addReg 0x1 0x2) ∧ decodeTableWord 16 0x5121 = none := by
  decide

/-- One instruction of each row of the opcode table. -/
def oneOfEach : List Instr :=
  [.cls, .ret, .jp 0, .call 0, .seImm 0 0, .sneImm 0 0, .seReg 0 0, .ldImm 0 0, .addImm 0 0, .ldReg 0 0, .orReg 0 0,
    .andReg 0 0, .xorReg 0 0, .addReg 0 0, .sub 0 0, .shr 0 0, .subn 0 0] ++
  [.shl 0 0, .sneReg 0 0, .ldI 0, .jpV0 0, .rnd 0 0, .drw 0 0 0, .skp 0, .sknp 0, .ldVxDt 0, .ldVxK 0, .ldDt 0,
    .ldSt 0, .addI 0, .ldF 0, .ldB 0, .ldStore 0, .ldLoad 0]

/-- No word matches two rows of spec/opcode_table.json: two masks always share a bit on which the patterns differ. -/
theorem test_rows_disjoint :
    oneOfEach.Pairwise fun i j =>
      (fixedBits i).1 &&& (fixedBits j).1 &&& ((fixedBits i).2 ^^^ (fixedBits j).2) ≠ 0 := by decide

/-! ## Single steps -/

/-- D-1. -/
theorem test_cls : after (fun t => (t.disp.pixel 5 7, t.getV 0xF)) (((vm 0x00E0).setDisp
    (Display.clear.flip 5 7)).setV 0xF 9) = some (false, 9) := by decide
/-- F-6. -/
theorem test_ret : after (fun t => (t.sp, t.pc)) { vm 0x00EE with sp := 1, stack := Vector.replicate 16 0x302 } =
    some (0, 0x302) := by decide
/-- F-7. -/
theorem test_ret_empty : after (fun t => (t.fault, t.pc)) (vm 0x00EE) = some (some .stackUnderflow, 0x200) := by decide
/-- F-1. -/
theorem test_jp : after (·.pc) (vm 0x1234) = some 0x234 := by decide
/-- F-4. -/
theorem test_call : after (fun t => (t.stack[0], t.sp, t.pc)) (vm 0x2300) = some (0x202, 1, 0x300) := by decide
/-- F-5. -/
theorem test_call_full : after (fun t => (t.fault, t.sp, t.pc)) { vm 0x2300 with sp := 16 } =
    some (some .stackOverflow, 16, 0x200) := by decide
/-- F-8. -/
theorem test_seImm : after (·.pc) ((vm 0x3310).setV 3 0x10) = some 0x204 := by decide
/-- F-9. -/
theorem test_seImm_not : after (·.pc) ((vm 0x3310).setV 3 0x11) = some 0x202 := by decide
/-- F-10. -/
theorem test_sneImm_not : after (·.pc) ((vm 0x4310).setV 3 0x10) = some 0x202 := by decide
/-- F-11. -/
theorem test_sneImm : after (·.pc) ((vm 0x4310).setV 3 0x11) = some 0x204 := by decide
/-- F-12. -/
theorem test_seReg : after (·.pc) (((vm 0x5120).setV 1 7).setV 2 7) = some 0x204 := by decide
/-- F-15. -/
theorem test_sneReg : after (·.pc) (((vm 0x9120).setV 1 7).setV 2 8) = some 0x204 := by decide
/-- A-1. -/
theorem test_ldImm : after (·.getV 0xA) (vm 0x6A42) = some 0x42 := by decide
/-- A-2. -/
theorem test_addImm : after (fun t => (t.getV 1, t.getV 0xF)) (((vm 0x7101).setV 1 0xFF).setV 0xF 0x5A) =
    some (0x00, 0x5A) := by decide
/-- A-5. -/
theorem test_ldReg : after (fun t => (t.getV 1, t.getV 2)) ((vm 0x8120).setV 2 0x33) = some (0x33, 0x33) := by decide
/-- A-6. -/
theorem test_or : after (fun t => (t.getV 1, t.getV 0xF)) ((((vm 0x8121).setV 1 0x0F).setV 2 0xF0).setV 0xF 0x77) =
    some (0xFF, 0x77) := by decide
/-- A-7. -/
theorem test_and : after (fun t => (t.getV 1, t.getV 0xF)) ((((vm 0x8122).setV 1 0x3C).setV 2 0x0F).setV 0xF 0x77) =
    some (0x0C, 0x77) := by decide
/-- A-8. -/
theorem test_xor : after (·.getV 1) (((vm 0x8123).setV 1 0xFF).setV 2 0x0F) = some 0xF0 := by decide
/-- A-14: X = F, the flag wins. -/
theorem test_addReg_vf : after (·.getV 0xF) (((vm 0x8F14).setV 0xF 0xFF).setV 1 0x01) = some 1 := by decide
/-- A-15: Y = F, the operand is read before the flag is written. -/
theorem test_addReg_from_vf : after (fun t => (t.getV 1, t.getV 0xF)) (((vm 0x81F4).setV 1 0x10).setV 0xF 0x05) =
    some (0x15, 0) := by decide
/-- A-16. -/
theorem test_sub : after (fun t => (t.getV 1, t.getV 0xF)) (((vm 0x8125).setV 1 0x05).setV 2 0x07) =
    some (0xFE, 0) := by decide
/-- A-22. -/
theorem test_sub_borrow : after (fun t => (t.getV 1, t.getV 0xF)) (((vmWith borrow 0x8125).setV 1 0x05).setV 2 0x05) =
    some (0x00, 0) := by decide
/-- A-25. -/
theorem test_shr : after (fun t => (t.getV 1, t.getV 0xF)) (((vm 0x8126).setV 1 0xFF).setV 2 0x04) =
    some (0x7F, 1) := by decide
/-- A-26. -/
theorem test_shr_legacy : after (fun t => (t.getV 1, t.getV 0xF))
    (((vmWith legacy 0x8126).setV 1 0xFF).setV 2 0x04) = some (0x02, 0) := by decide
/-- A-28. -/
theorem test_subn : after (fun t => (t.getV 1, t.getV 0xF)) (((vm 0x8127).setV 1 0x07).setV 2 0x05) =
    some (0xFE, 0) := by decide
/-- A-31. -/
theorem test_shl : after (fun t => (t.getV 1, t.getV 0xF)) ((vm 0x810E).setV 1 0x81) = some (0x02, 1) := by decide
/-- A-33. -/
theorem test_shl_legacy : after (fun t => (t.getV 1, t.getV 0xF)) ((vmWith legacy 0x812E).setV 2 0x81) =
    some (0x02, 1) := by decide
/-- M-2. -/
theorem test_ldI : after (·.i) (vm 0xAFFF) = some 0xFFF := by decide
/-- F-19, first step: the target is past RAM and no error yet. -/
theorem test_jpV0 : after (fun t => (t.pc, t.fault)) ((vm 0xBFFF).setV 0 0xFF) = some (0x10FE, none) := by decide
/-- RN-2: any draw under an empty mask. -/
theorem test_rnd_zero : ∃ t, step ((vm 0xC300).setV 3 9) = .next t ∧ t.getV 3 = 0 :=
  ⟨_, step_exec (op := 0xC300) rfl (by decide) (by decide : decode 0xC300 = .ok (.rnd 3 0)), by
    rw [State.getV_setV, if_pos rfl]; exact BitVec.and_zero⟩
/-- D-5: the sprite wraps at the bottom edge. -/
theorem test_drw_wraps :
    after (fun t => (t.disp.pixel 0 31, t.disp.pixel 0 0, t.disp.pixel 0 1, t.getV 0xF))
      ((((vm 0xD122).writeBytes 0x300 [0x80, 0x80]).setI 0x300).setV 2 31) = some (true, true, false, 0) := by decide
/-- L1-8, on a framebuffer with (6, 0) set: column 7 lands at x = 6, unsets it and collides. -/
theorem test_drw_collides :
    after (fun t => (t.disp.pixel 63 0, t.disp.pixel 5 0, t.disp.pixel 6 0, t.disp.pixel 7 0, t.getV 0xF))
      (((((vm 0xD121).writeByte 0x300 0xFF).setI 0x300).setV 1 63).setDisp (Display.clear.flip 6 0)) =
      some (true, true, false, false, 1) := by decide
/-- K-5. -/
theorem test_skp : after (·.pc) (((vm 0xE59E).setV 5 0x1C).setKey 0xC true) = some 0x204 := by decide
/-- K-3. -/
theorem test_sknp : after (·.pc) (((vm 0xE5A1).setV 5 0x0C).setKey 0xC true) = some 0x202 := by decide
/-- T-2. -/
theorem test_ldVxDt : after (·.getV 4) ((vm 0xF407).setDt 0x3C) = some 0x3C := by decide
/-- K-6. -/
theorem test_ldVxK_waits : after (fun t => (t.pc, t.awaitingKey, t.getV 3)) ((vm 0xF30A).setV 3 0x55) =
    some (0x200, true, 0x55) := by decide
/-- K-7. -/
theorem test_ldVxK_lowest : after (fun t => (t.getV 3, t.pc, t.awaitingKey))
    ((((vm 0xF30A).setAwaitingKey true).setKey 9 true).setKey 3 true) = some (0x03, 0x202, false) := by decide
/-- T-1. -/
theorem test_ldDt : after (fun t => (t.dt, t.st)) ((vm 0xF415).setV 4 0x3C) = some (0x3C, 0) := by decide
/-- T-3, the instruction. -/
theorem test_ldSt : after (fun t => (t.dt, t.st)) ((vm 0xF418).setV 4 0x02) = some (0, 0x02) := by decide
/-- M-4. -/
theorem test_addI : after (fun t => (t.i, t.getV 0xF)) (((vm 0xF21E).setI 0xFFF).setV 2 1) = some (0x1000, 0) := by
  decide
/-- M-5. -/
theorem test_addI_wraps : after (·.i) (((vm 0xF21E).setI 0xFFFF).setV 2 1) = some 0x0000 := by decide
/-- M-7. -/
theorem test_ldF : after (·.i) ((vm 0xF029).setV 0 0x1A) = some 0x032 := by decide
/-- L1-5. -/
theorem test_ldB : after (fun t => (t.readByte 0x300, t.readByte 0x301, t.readByte 0x302, t.i))
    (((vm 0xF033).setV 0 0xEA).setI 0x300) = some (2, 3, 4, 0x300) := by decide
/-- M-13. -/
theorem test_ldB_bounds : after (fun t => (t.fault, t.readByte 0xFFE, t.pc)) (((vm 0xF033).setV 0 7).setI 0xFFE) =
    some (some (.memoryAccessOutOfBounds 0x1000), 0, 0x200) := by decide
/-- M-14. -/
theorem test_ldStore : after (fun t => (t.readByte 0x300, t.readByte 0x301, t.readByte 0x302, t.i))
    (((((vm 0xF155).setI 0x300).setV 0 1).setV 1 2).setV 2 3) = some (1, 2, 0, 0x300) := by decide
/-- M-15. -/
theorem test_ldStore_legacy : after (fun t => (t.readByte 0x301, t.i))
    ((((vmWith legacy 0xF155).setI 0x300).setV 0 1).setV 1 2) = some (2, 0x302) := by decide
/-- M-20. -/
theorem test_ldLoad : after (fun t => (t.getV 0, t.getV 1, t.getV 2, t.getV 3, t.i))
    ((((vm 0xF265).writeBytes 0x300 [2, 3, 4, 5]).setI 0x300).setV 3 9) = some (2, 3, 4, 9, 0x300) := by decide
/-- M-21. -/
theorem test_ldLoad_legacy : after (fun t => (t.getV 2, t.i))
    (((vmWith legacy 0xF265).writeBytes 0x300 [2, 3, 4]).setI 0x300) = some (4, 0x303) := by decide
/-- F-23: an odd address fetches like an even one. -/
theorem test_odd_pc : after (fun t => (t.getV 1, t.pc)) ((State.reset.writeBytes 0x201 [0x61, 0x23]).setPc 0x201) =
    some (0x23, 0x203) := by decide
/-- L1-12: the font bytes at its two ends and the first byte after it. -/
theorem test_reset_font : (State.reset.readByte 0x000, State.reset.readByte 0x04F, State.reset.readByte 0x050) =
    (0xF0, 0x80, 0x00) := by decide
/-- L1-10. -/
theorem test_load_too_large (b : Byte) :
    perform (.load (List.replicate 3585 b)) State.reset =
      .next (State.reset, .result (some (.romTooLarge 3585))) := by
  have h : romMax < 3585 := by decide
  simp only [perform, State.load, List.length_replicate, if_pos h]
/-- E-8. -/
theorem test_load : afterOp (fun t r => (t.readByte 0x200, t.readByte 0x201, t.pc, r)) (.load [0x12, 0x34])
    (State.reset.setPc 0x300) = some (0x12, 0x34, 0x300, .result none) := by decide
/-- T-3, the last TICK; T-7. -/
theorem test_tick : afterOp (fun t _ => (t.dt, t.st, t.soundActive)) .tick
    (((State.reset.setDt 3).setSt 1).raise .stackOverflow) = some (2, 0, false) := by decide
/-- The interface of the host: a placed word is the next instruction after reset. -/
theorem test_withFetchWord : after (fun t => (t.getV 1, t.getV 0xF, t.pc)) (State.reset.withFetchWord 16 0x7105) =
    some (5, 0, 0x202) := by decide

/-! ## Memory -/

/-- Writing back what an unlisted address reads as removes the entry; other cells stay in rising order. -/
theorem test_memory_canonical :
    ((((State.reset.writeByte 0x302 7).writeByte 0x300 5).writeByte 0x302 0).writeByte 0x000 0xF0).mem =
      [(0x300, 5)] := by decide

/-! ## Witnesses: the hypotheses of each statement, met together, at the boundary values of each clause -/

/-- A recorded fault. -/
def stopped : State := State.reset.raise .stackOverflow

/-- Waiting for a key: vector K-6 after its step. -/
def waiting : State := (vm 0xF30A).setAwaitingKey true

theorem witness_DecodeOfEncodeIsTheInstruction : (Instr.drw 0xF 0xF 0x0).wellFormed = true := rfl
theorem witness_EncodeOfDecodeIsTheWord : decode 0xDFF0 = .ok (.drw 0xF 0xF 0x0) := by decide
theorem witness_UnknownWordsAreExactlyTheReservedOnes : decode 0x0FFF = .error (.unknown 0x0FFF) := by decide
theorem witness_StepRunsTheDecodedInstruction :
    let s := (State.reset.writeBytes 0xFFE [0x12, 0x00]).setPc 0xFFE
    s.fault = none ∧ s.pc.toNat ≤ 0xFFE ∧
    decode (((s.readByte s.pc.toNat).setWidth 16 <<< 8) ||| (s.readByte (s.pc.toNat + 1)).setWidth 16) =
      .ok (.jp 0x200) := by decide
theorem witness_FetchReadsTwoBytesOrIsRecorded :
    ((State.reset.setPc 0xFFE).fault = none ∧ (State.reset.setPc 0xFFE).pc.toNat ≤ 0xFFE) ∧
    ((State.reset.setPc 0xFFF).fault = none ∧ 0xFFE < (State.reset.setPc 0xFFF).pc.toNat) := by decide
theorem witness_UnknownOpcodeIsRecorded :
    State.reset.fault = none ∧ State.reset.fetch = .ok 0x0000 ∧ decode 0x0000 = .error (.unknown 0x0000) := by decide
theorem reset_step : step State.reset = .next (State.reset.raise (.unknownOpcode 0x0000)) :=
  step_unknown rfl (by decide) (by decide : decode 0x0000 = .error (.unknown 0x0000))
theorem witness_ErrorsCommitNothing_step :
    perform .step State.reset =
      .next (State.reset.raise (.unknownOpcode 0x0000), .result (some (.unknownOpcode 0x0000))) := by
  simp [perform, reset_step]
theorem witness_ErrorsCommitNothing_load :
    perform (.load (List.replicate 3585 0)) State.reset =
      .next (State.reset, .result (some (.romTooLarge 3585))) := test_load_too_large 0
theorem witness_FaultIsStickyUntilReset_step :
    perform .step State.reset =
      .next (State.reset.raise (.unknownOpcode 0x0000), .result (some (.unknownOpcode 0x0000))) :=
  witness_ErrorsCommitNothing_step
theorem witness_FaultIsStickyUntilReset_recorded : stopped.fault = some .stackOverflow := rfl
theorem witness_FaultIsStickyUntilReset_host :
    perform .tick stopped = .next (stopped.tick, .nothing) ∧ HostOp.tick ≠ .step ∧ HostOp.tick ≠ .readStatus ∧
    ∀ c, HostOp.tick ≠ .reset c := ⟨rfl, by decide, by decide, by simp⟩
theorem witness_FaultIsStickyUntilReset_reset :
    perform (.reset Config.default) stopped = .next (stopped.resetPort Config.default, .nothing) := rfl
theorem witness_OnlyTheNamedInstructionsRaise_call :
    let s : State := { State.reset with sp := 16 }
    s.fault = none ∧ exec (.call 0) s = .next (s.raise .stackOverflow) ∧
    (s.raise .stackOverflow).fault = some .stackOverflow := ⟨rfl, exec_call_full 0 _ rfl, rfl⟩
theorem witness_OnlyTheNamedInstructionsRaise_ret :
    State.reset.fault = none ∧ exec .ret State.reset = .next (State.reset.raise .stackUnderflow) ∧
    (State.reset.raise .stackUnderflow).fault = some .stackUnderflow := ⟨rfl, exec_ret_empty _ rfl, rfl⟩
theorem witness_OnlyTheNamedInstructionsRaise_memory :
    let s := State.reset.setI 0xFFF
    let e := VmError.memoryAccessOutOfBounds (max s.i.toNat 0x1000)
    s.fault = none ∧ (s.raise e).fault = some e ∧ exec (.drw 0 0 2) s = .next (s.raise e) ∧
    exec (.ldB 0) s = .next (s.raise e) ∧ exec (.ldStore 1) s = .next (s.raise e) ∧
    exec (.ldLoad 1) s = .next (s.raise e) :=
  ⟨rfl, rfl, exec_drw_error 0 0 2 (by decide) (by decide), exec_ldB_error 0 (by decide),
    exec_ldStore_error 1 (by decide), exec_ldLoad_error 1 (by decide)⟩

/-- The invariant at the reset state of the highest FONT_BASE, and with PC as high as a jump can leave it. -/
theorem witness_Inv_high_pc : ({ State.reset with pc := 0x10FE } : State).Inv where
  pc_bound := by decide
  return_addresses k hk := absurd hk (Nat.not_lt_zero _)
  memory_wf := Memory.wf_nil _
  fault_from_step _ h := nomatch h
  config_wf := by decide
theorem witness_InvariantHoldsAtReset : { Config.default with fontBase := 0x1B0 }.wellFormed = true := by decide
theorem witness_StepKeepsTheInvariant :
    ({ State.reset with pc := 0x10FE } : State).Inv ∧ ∃ t, step { State.reset with pc := 0x10FE } = .next t :=
  ⟨witness_Inv_high_pc, _, step_fetch_error rfl (by decide)⟩
theorem witness_HostOperationsKeepTheInvariant :
    ({ State.reset with pc := 0x10FE } : State).Inv ∧
    ∃ t r, perform (.setKey 15 true) { State.reset with pc := 0x10FE } = .next (t, r) :=
  ⟨witness_Inv_high_pc, _, _, rfl⟩
theorem waiting_waits : waiting.WaitsAtKey := fun _ => ⟨by decide, 0xF30A, 3, by decide, by decide⟩
theorem witness_AwaitingKeyMeansPcAtTheWait :
    (∀ rom, HostOp.step ≠ .load rom) ∧ waiting.WaitsAtKey ∧ waiting.awaitingKey = true ∧
    perform .step waiting = .next (waiting, .result none) := by
  refine ⟨by simp, waiting_waits, rfl, ?_⟩
  have h : step waiting = .next waiting := by
    rw [step_exec (by decide) (by decide : waiting.fetch = .ok 0xF30A)
      (by decide : decode 0xF30A = .ok (.ldVxK 3)), exec_ldVxK_none 3 (by decide)]
    rfl
  simp [perform, h]; rfl

/-- An addition that changes VF, and a skip that is taken: next states for the whole-machine rules. -/
theorem witness_exec_addReg :
    exec (.addReg 1 2) ((State.reset.setV 1 0xFF).setV 2 1) = .next
      (((State.reset.setV 1 0xFF).setV 2 1).advance.setVThenFlag 1 (0xFF + 1) 1) := rfl
theorem witness_OnlyClsAndDrwTouchTheDisplay :
    Instr.addReg 1 2 ≠ .cls ∧ (∀ x y n, Instr.addReg 1 2 ≠ .drw x y n) ∧
    (∃ t, exec (.addReg 1 2) State.reset = .next t) ∧ HostOp.tick ≠ .step ∧ (∀ c, HostOp.tick ≠ .reset c) ∧
    perform .tick stopped = .next (stopped.tick, .nothing) :=
  ⟨by decide, by simp, ⟨_, rfl⟩, by decide, by simp, rfl⟩
theorem witness_OnlyTheNamedInstructionsTouchRam :
    (∀ x, Instr.addReg 1 2 ≠ .ldB x) ∧ (∀ x, Instr.addReg 1 2 ≠ .ldStore x) ∧ (∀ x, Instr.addReg 1 2 ≠ .ldLoad x) ∧
    (∀ x y n, Instr.addReg 1 2 ≠ .drw x y n) ∧ ∃ t, exec (.addReg 1 2) State.reset = .next t :=
  ⟨by simp, by simp, by simp, by simp, _, rfl⟩
theorem witness_OnlyTheHostWritesTheKeypad :
    ((∀ k b, HostOp.tick ≠ .setKey k b) ∧ (∀ c, HostOp.tick ≠ .reset c) ∧
      perform .tick stopped = .next (stopped.tick, .nothing)) ∧
    (∀ x, Instr.addReg 1 2 ≠ .skp x) ∧ (∀ x, Instr.addReg 1 2 ≠ .sknp x) ∧ (∀ x, Instr.addReg 1 2 ≠ .ldVxK x) ∧
    ∃ t, exec (.addReg 1 2) State.reset = .next t :=
  ⟨⟨by simp, by simp, rfl⟩, by simp, by simp, by simp, _, rfl⟩
theorem witness_SoundTimerIsNeverRead : ∃ t, exec (.ldSt 1) State.reset = .next t := ⟨_, rfl⟩
theorem witness_StackAboveDepthIsUnobservable :
    let s : State := { State.reset with sp := 1 }
    (∀ k : Fin 16, k.val < s.sp.val → ((Vector.replicate 16 (0x222 : Word)).set 0 0)[k.val] = s.stack[k.val]) ∧
    ∃ t r, perform .step s = .next (t, r) := by
  have h : step { State.reset with sp := 1 } =
      .next (({ State.reset with sp := 1 } : State).raise (.unknownOpcode 0x0000)) :=
    step_unknown rfl (by decide) (by decide : decode 0x0000 = .error (.unknown 0x0000))
  exact ⟨by decide, _, _, by simp only [perform, h]; rfl⟩
theorem witness_ConfigurationIsConstant :
    step stopped = .next stopped ∧ perform (.reset legacy) stopped = .next (stopped.resetPort legacy, .nothing) :=
  ⟨step_faulted rfl, rfl⟩
theorem witness_OnlyTheNamedInstructionsTransferControl :
    State.reset.fault = none ∧ exec (.seImm 1 0) State.reset = .next (State.reset.advance.skip true) ∧
    (State.reset.advance.skip true).fault = none ∧ (State.reset.advance.skip true).pc ≠ State.reset.pc + 2 :=
  ⟨rfl, rfl, rfl, by decide⟩
theorem witness_VfChangesOnlyAsFlagOrDestination :
    (((State.reset.setV 1 0xFF).setV 2 1).advance.setVThenFlag 1 (0xFF + 1) 1).getV 0xF ≠
      ((State.reset.setV 1 0xFF).setV 2 1).getV 0xF ∧
    exec (.addReg 1 2) ((State.reset.setV 1 0xFF).setV 2 1) = .next
      (((State.reset.setV 1 0xFF).setV 2 1).advance.setVThenFlag 1 (0xFF + 1) 1) := ⟨by decide, rfl⟩
theorem witness_AddWithCarryFlagsOverflow : (0x0 : Nibble) ≠ 0xF ∧ (0xE : Nibble) ≠ 0xF := by decide
theorem witness_SubtractWrapsAndFlagsBorrow :
    State.reset.config.subFlagPolarity = .notBorrow ∧ (State.resetWith borrow).config.subFlagPolarity = .borrow ∧
    (0xE : Nibble) ≠ 0xF := by decide
theorem witness_ReverseSubtractWrapsAndFlagsBorrow :
    State.reset.config.subFlagPolarity = .notBorrow ∧ (State.resetWith borrow).config.subFlagPolarity = .borrow ∧
    (0xE : Nibble) ≠ 0xF := by decide
theorem witness_FlagCompletesTheResult :
    (0x0 : Nibble) ≠ 0xF ∧ (0xE : Nibble) ≠ 0xF ∧ State.reset.config.subFlagPolarity = .notBorrow ∧
    (State.resetWith borrow).config.subFlagPolarity = .borrow := by decide
theorem witness_ShiftRightHalves :
    State.reset.config.quirkMode = .modern ∧ (State.resetWith legacy).config.quirkMode = .legacy ∧
    (0xE : Nibble) ≠ 0xF := by decide
theorem witness_ShiftLeftDoubles :
    State.reset.config.quirkMode = .modern ∧ (State.resetWith legacy).config.quirkMode = .legacy ∧
    (0xE : Nibble) ≠ 0xF := by decide
theorem witness_CallPushesTheReturnAddress :
    ({ State.reset with sp := 15 } : State).sp.val < 16 ∧ ({ State.reset with sp := 16 } : State).sp = 16 := by decide
theorem witness_ReturnPopsThePc :
    0 < ({ State.reset with sp := 1 } : State).sp.val ∧ State.reset.sp = 0 := by decide
theorem witness_ReturnComesBackAfterCall :
    let s : State := { State.reset with sp := 15 }
    s.sp.val < 16 ∧ ∃ t u : State, exec (.call 0x300) s = .next t ∧ u.sp = t.sp ∧ u.stack = t.stack :=
  ⟨by decide, _, _, exec_call_ok 0x300 _ (by decide), rfl, rfl⟩
theorem witness_FontIndexIsTheGlyphAddress :
    (State.resetWith { Config.default with fontBase := 0x1B0 }).config.wellFormed = true := by decide
theorem witness_BcdStoresThreeDigits :
    (State.reset.setI 0xFFD).i.toNat + 2 ≤ 0xFFF ∧ 0xFFF < (State.reset.setI 0xFFE).i.toNat + 2 := by decide
theorem witness_RegisterDumpStoresThePrefix :
    ((State.resetWith legacy).setI 0xFF0).i.toNat + (0xF : Nibble).toNat ≤ 0xFFF ∧
    (0xF : Nibble).toNat ≤ (0xF : Nibble).toNat ∧ ((State.resetWith legacy).setI 0xFF0).config.quirkMode = .legacy ∧
    (State.reset.setI 0xFFF).i.toNat + (0x0 : Nibble).toNat ≤ 0xFFF ∧ State.reset.config.quirkMode = .modern ∧
    0xFFF < (State.reset.setI 0xFF1).i.toNat + (0xF : Nibble).toNat := by decide
theorem witness_RegisterLoadReadsThePrefix :
    ((State.resetWith legacy).setI 0xFF0).i.toNat + (0xF : Nibble).toNat ≤ 0xFFF ∧
    (0xF : Nibble).toNat ≤ (0xF : Nibble).toNat ∧ ((State.resetWith legacy).setI 0xFF0).config.quirkMode = .legacy ∧
    (State.reset.setI 0xFFF).i.toNat + (0x0 : Nibble).toNat ≤ 0xFFF ∧ State.reset.config.quirkMode = .modern ∧
    0xFFF < (State.reset.setI 0xFF1).i.toNat + (0xF : Nibble).toNat := by decide
/-- A dump that ends on the last byte of RAM and covers both bytes of the next word, starting one byte before it. -/
theorem witness_FetchSeesStoredBytes_covered :
    let s := (State.reset.setPc 0xFFC).setI 0xFFD
    s.i.toNat + (2 : Nibble).toNat ≤ 0xFFF ∧ s.pc.toNat + 3 ≤ 0xFFF ∧
    ((1 : Nibble).toNat ≤ (2 : Nibble).toNat ∧ indexAddr s (1 : Nibble).toNat = s.pc.toNat + 2) ∧
    ((2 : Nibble).toNat ≤ (2 : Nibble).toNat ∧ indexAddr s (2 : Nibble).toNat = s.pc.toNat + 3) := by decide
/-- Dumps that cover one byte of the next word and not the other: its second byte only, then its first byte only. -/
theorem witness_FetchSeesStoredBytes_half :
    let s := State.reset.setI 0x203
    let u := State.reset.setI 0x1F3
    (s.i.toNat + (0 : Nibble).toNat ≤ 0xFFF ∧ s.pc.toNat + 3 ≤ 0xFFF ∧ s.pc.toNat + 2 < s.i.toNat ∧
      indexAddr s (0 : Nibble).toNat = s.pc.toNat + 3) ∧
    (u.i.toNat + (0xF : Nibble).toNat ≤ 0xFFF ∧ u.pc.toNat + 3 ≤ 0xFFF ∧
      indexAddr u (0xF : Nibble).toNat = u.pc.toNat + 2 ∧
      u.i.toNat + (0xF : Nibble).toNat < u.pc.toNat + 3) := by decide
/-- Dumps that end just before the next word and start just after it. -/
theorem witness_FetchSeesStoredBytes_elsewhere :
    let s := State.reset.setI 0x204
    let u := State.reset.setI 0x1F2
    (s.i.toNat + (0 : Nibble).toNat ≤ 0xFFF ∧ s.pc.toNat + 3 ≤ 0xFFF ∧ s.pc.toNat + 3 < s.i.toNat) ∧
    (u.i.toNat + (0xF : Nibble).toNat ≤ 0xFFF ∧ u.pc.toNat + 3 ≤ 0xFFF ∧
      u.i.toNat + (0xF : Nibble).toNat < u.pc.toNat + 2) := by decide
theorem witness_DrawXorsTheWrappedSprite :
    ((0x0 : Nibble) = 0 ∨ (State.reset.setI 0xFFFF).i.toNat + (0x0 : Nibble).toNat ≤ 0x1000) ∧
    (State.reset.setI 0xFF1).i.toNat + (0xF : Nibble).toNat ≤ 0x1000 ∧
    ((0xF : Nibble) ≠ 0 ∧ 0x1000 < (State.reset.setI 0xFF2).i.toNat + (0xF : Nibble).toNat) := by decide
/-- D-8, D-9: a draw that unsets a set pixel, and a draw that unsets none. -/
theorem witness_DrawXorsTheWrappedSprite_collision :
    after (fun t => t.disp.pixel 0 0) (((((vm 0xD121).writeByte 0x300 0x80).setI 0x300)).setDisp
      (Display.clear.flip 0 0)) = some false ∧ (Display.clear.flip 0 0).pixel 0 0 = true ∧
    after (fun t => (t.disp.pixel 0 0, t.disp.pixel 1 0)) (((((vm 0xD121).writeByte 0x300 0x40).setI 0x300)).setDisp
      (Display.clear.flip 0 0)) = some (true, true) := by decide
theorem witness_DrawingTwiceRestoresTheDisplay :
    State.reset.i.toNat + (0x5 : Nibble).toNat ≤ 0x1000 ∧
    ∃ t u : State, exec (.drw 0 1 5) State.reset = .next t ∧ u.disp = t.disp ∧ u.i = State.reset.i ∧
      u.getV 0 = State.reset.getV 0 ∧ u.getV 1 = State.reset.getV 1 ∧
      (∀ r, r < (0x5 : Nibble).toNat → u.readByte (indexAddr State.reset r) = State.reset.readByte (indexAddr State.reset r)) ∧
      State.reset.disp.pixel 0 0 = false ∧ t.disp.pixel 0 0 = true :=
  ⟨by decide, _, _, exec_drw_ok 0 1 5 (by decide), rfl, rfl, by decide, by decide, fun _ _ => rfl, by decide,
    by decide⟩
/-- A sprite whose set bits all lie on set pixels: the second draw finds nothing to unset. -/
theorem witness_DrawingTwiceRestoresTheDisplay_no_collision :
    let s := ((State.reset.writeByte 0x300 0x80).setI 0x300).setDisp (Display.clear.flip 0 0)
    s.disp.pixel 0 0 = true ∧ (drawn s 0 1 1).1.pixel 0 0 = false ∧ (drawn s 0 1 1).1.pixel 1 0 = false := by decide
theorem witness_KeySkipsTestTheLowNibble :
    (0xC : Nibble).toNat = ((State.reset.setV 5 0x1C).getV 5).toNat % 16 := by decide
theorem witness_KeyWaitStoresTheLowestKeyOrHolds :
    let s := (State.reset.setKey 0xF true).setKey 3 true
    (s.getKey 3 = true ∧ ∀ j : Nibble, j.toNat < (3 : Nibble).toNat → s.getKey j = false) ∧
    (State.reset.noKeyPressed) := by
  refine ⟨⟨by decide, by decide⟩, ?_⟩
  unfold State.noKeyPressed; decide
theorem witness_WaitingRunsStayPut :
    waiting.awaitingKey = true ∧ waiting.WaitsAtKey ∧ waiting.noKeyPressed := by
  refine ⟨rfl, waiting_waits, ?_⟩
  unfold State.noKeyPressed; decide
/-- F-3. -/
theorem witness_EndOfRunIsAFixedPoint : (vm 0x1200).AtEnd 0x200 := ⟨by decide, by decide, 0x1200, by decide, by decide⟩
theorem witness_StepsDoNotCountTimers :
    (∀ x, Instr.ldSt 4 ≠ .ldDt x) ∧ (∀ x, Instr.ldDt 4 ≠ .ldSt x) ∧
    (∃ t, exec (.ldSt 4) State.reset = .next t) ∧ ∃ t, exec (.ldDt 4) State.reset = .next t :=
  ⟨by simp, by simp, ⟨_, rfl⟩, _, rfl⟩
theorem witness_LoadCopiesTheRomOrRefusesIt (b : Byte) :
    (List.replicate 3584 b).length ≤ 3584 ∧ 3583 < (List.replicate 3584 b).length ∧
    3584 < (List.replicate 3585 b).length := by
  rw [List.length_replicate, List.length_replicate]; decide
theorem witness_SetKeyWritesOneKey : 16 ≤ 16 ∧ (0xF : Nibble).toNat = 15 := by decide
theorem witness_ResetLeavesTheResetValues :
    { Config.default with fontBase := 0x1B0 }.wellFormed = true ∧
    ((0 : Nat) < (0x1B0 : Word).toNat ∧ (0x1B0 : Word).toNat + 80 ≤ 0x200) := by decide
theorem witness_StepBeforeLoadIsUnknownOpcode : { Config.default with fontBase := 0x1B0 }.wellFormed = true := by decide
/-- A fetchable PC, and a state in which neither the PC nor a recorded error lets a step fetch. -/
theorem witness_PlacedWordIsTheNextInstruction :
    after (fun t => (t.getV 1, t.pc)) (State.reset.withFetchWord 16 0x6123) = some (0x23, 0x202) ∧
    after (fun t => (t.getV 1, t.pc)) ((stopped.setPc 0x10FE).withFetchWord 16 0x6123) = some (0x23, 0x202) := by decide

end Sys2Proof.Tests
end

section
/-! SUPPORT. What the host's operations, the instructions that may raise an error and the step do, said once. -/

namespace Sys2Proof.Machine

/-! ## The host's operations -/

theorem perform_reset_iff {c : Config} {s t : State} {r : Reply} :
    perform (.reset c) s = .next (t, r) ↔ c.wellFormed = true ∧ t = s.resetPort c ∧ r = .nothing := by
  by_cases hc : c.wellFormed = true <;> simp [perform, hc, eq_comm]

theorem perform_step_iff {s t : State} {r : Reply} :
    perform .step s = .next (t, r) ↔ step s = .next t ∧ r = .result t.fault := by
  cases h : step s <;> simp only [perform, h, Host.Outcome.next.injEq, Prod.mk.injEq, reduceCtorEq, false_and]
  constructor
  · rintro ⟨rfl, rfl⟩; exact ⟨rfl, rfl⟩
  · rintro ⟨rfl, rfl⟩; exact ⟨rfl, rfl⟩

theorem perform_setKey_iff {k : Nat} {b : Bool} {s t : State} {r : Reply} :
    perform (.setKey k b) s = .next (t, r) ↔ k < 16 ∧ t = s.setKey (BitVec.ofNat 4 k) b ∧ r = .nothing := by
  by_cases hk : k < 16 <;> simp [perform, hk, eq_comm]

theorem perform_setKey (s : State) (k : Nibble) (b : Bool) :
    perform (.setKey k.toNat b) s = .next (s.setKey k b, .nothing) :=
  perform_setKey_iff.mpr ⟨k.isLt, by rw [BitVec.ofNat_toNat, BitVec.setWidth_eq], rfl⟩

/-- All LOAD can do (R71, R72). -/
theorem State.load_cases (s : State) (rom : List Byte) :
    (romMax < rom.length ∧ s.load rom = (s, some (.romTooLarge rom.length))) ∨
    (rom.length ≤ romMax ∧ s.load rom = (s.writeBytes progStart rom, none)) := by
  by_cases h : romMax < rom.length
  · exact .inl ⟨h, if_pos h⟩
  · exact .inr ⟨Nat.le_of_not_lt h, if_neg h⟩

@[simp] theorem State.load_key (s : State) (rom : List Byte) : (s.load rom).1.key = s.key := by
  obtain ⟨-, h⟩ | ⟨-, h⟩ := s.load_cases rom <;> simp [h]

@[simp] theorem State.load_config (s : State) (rom : List Byte) : (s.load rom).1.config = s.config := by
  obtain ⟨-, h⟩ | ⟨-, h⟩ := s.load_cases rom <;> simp [h]

/-! ## RESET -/

@[simp] theorem State.getV_resetPort (s : State) (c : Config) (x : Nibble) : (s.resetPort c).getV x = 0 :=
  Vector.getElem_replicate x.isLt

@[simp] theorem State.getKey_resetPort (s : State) (c : Config) (k : Nibble) : (s.resetPort c).getKey k = false :=
  Vector.getElem_replicate k.isLt

@[simp] theorem State.stack_resetPort (s : State) (c : Config) (k : Fin 16) : (s.resetPort c).stack[k.val] = 0 :=
  Vector.getElem_replicate k.isLt

@[simp] theorem State.pixel_resetPort (s : State) (c : Config) (x : Fin 64) (y : Fin 32) :
    (s.resetPort c).disp.pixel x y = false := Display.pixel_clear x y

/-- After RESET no byte of RAM is listed: each reads as its reset contents. -/
@[simp] theorem State.readByte_resetPort (s : State) (c : Config) (a : Nat) :
    (s.resetPort c).readByte a = resetByte c a := rfl

theorem resetByte_font (c : Config) (j : Fin 80) : resetByte c (c.fontBase.toNat + j.val) = c.font[j.val] := by
  simp [resetByte]

theorem resetByte_outside_font {c : Config} {a : Nat}
    (h : a < c.fontBase.toNat ∨ c.fontBase.toNat + 80 ≤ a) : resetByte c a = 0 :=
  dif_neg (by omega)

/-! ## READ_DISPLAY -/

/-- The grid of R333 is the framebuffer's rows end to end. -/
theorem State.displayGrid_eq_flatten (s : State) : s.displayGrid = s.disp.flatten.toList := by
  simp only [State.displayGrid, List.flatMap_def, Vector.flatten, Vector.toList_mk, Array.toList_flatten,
    Array.toList_map, List.map_map]
  rfl

@[simp] theorem State.displayGrid_length (s : State) : s.displayGrid.length = 2048 := by
  rw [State.displayGrid_eq_flatten, Vector.length_toList]

/-- Element `y * 64 + x` of the grid is pixel (x, y) (R33). -/
theorem State.displayGrid_getElem? (s : State) (x : Fin 64) (y : Fin 32) :
    s.displayGrid[y.val * 64 + x.val]? = some (s.disp.pixel x y) := by
  have hi : y.val * 64 + x.val < 32 * 64 := by omega
  have hrow : (y.val * 64 + x.val) / 64 = y.val := by omega
  have hcol : (y.val * 64 + x.val) % 64 = x.val := by omega
  rw [State.displayGrid_eq_flatten, Vector.getElem?_toList, Vector.getElem?_eq_getElem hi, Vector.getElem_flatten]
  simp only [hrow, hcol, Display.pixel]

/-! ## Instructions with more than one outcome -/

theorem exec_call_cases (nnn : Addr12) (s : State) :
    (∃ h : s.sp.val < 16, exec (.call nnn) s = .next { s with
      stack := s.stack.set s.sp.val (s.pc + 2) h, sp := ⟨s.sp.val + 1, by omega⟩, pc := addrImm nnn }) ∨
    (s.sp = 16 ∧ exec (.call nnn) s = .next (s.raise .stackOverflow)) := by
  obtain ⟨h, -⟩ | ⟨h, -⟩ := s.push_cases (s.pc + 2)
  · exact .inl ⟨h, exec_call_ok nnn s h⟩
  · exact .inr ⟨h, exec_call_full nnn s h⟩

theorem exec_ret_cases (s : State) :
    (∃ h : 0 < s.sp.val, exec .ret s =
      .next { s with sp := ⟨s.sp.val - 1, by omega⟩, pc := s.stack[s.sp.val - 1]'(by omega) }) ∨
    (s.sp = 0 ∧ exec .ret s = .next (s.raise .stackUnderflow)) := by
  obtain ⟨h, -⟩ | ⟨h, -⟩ := s.pop_cases
  · exact .inl ⟨h, exec_ret_ok s h⟩
  · exact .inr ⟨h, exec_ret_empty s h⟩

theorem exec_ldB_cases (x : Nibble) (s : State) :
    (s.i.toNat + 2 ≤ 0xFFF ∧
      exec (.ldB x) s = .next (s.advance.writeBytes s.i.toNat (bcdDigits (s.getV x)))) ∨
    (0xFFF < s.i.toNat + 2 ∧
      exec (.ldB x) s = .next (s.raise (.memoryAccessOutOfBounds (max s.i.toNat 0x1000)))) :=
  (Nat.lt_or_ge 0xFFF (s.i.toNat + 2)).symm.imp (fun h => ⟨h, exec_ldB_ok x h⟩) fun h => ⟨h, exec_ldB_error x h⟩

theorem exec_ldStore_cases (x : Nibble) (s : State) :
    (s.i.toNat + x.toNat ≤ 0xFFF ∧
      exec (.ldStore x) s = .next ((s.advance.writeBytes s.i.toNat (dumpedBytes s x)).setI (indexAfter s x))) ∨
    (0xFFF < s.i.toNat + x.toNat ∧
      exec (.ldStore x) s = .next (s.raise (.memoryAccessOutOfBounds (max s.i.toNat 0x1000)))) :=
  (Nat.lt_or_ge 0xFFF (s.i.toNat + x.toNat)).symm.imp (fun h => ⟨h, exec_ldStore_ok x h⟩)
    fun h => ⟨h, exec_ldStore_error x h⟩

theorem exec_ldLoad_cases (x : Nibble) (s : State) :
    (s.i.toNat + x.toNat ≤ 0xFFF ∧
      exec (.ldLoad x) s = .next { s with v := loadedRegs s x, pc := s.pc + 2, i := indexAfter s x }) ∨
    (0xFFF < s.i.toNat + x.toNat ∧
      exec (.ldLoad x) s = .next (s.raise (.memoryAccessOutOfBounds (max s.i.toNat 0x1000)))) :=
  (Nat.lt_or_ge 0xFFF (s.i.toNat + x.toNat)).symm.imp (fun h => ⟨h, exec_ldLoad_ok x h⟩)
    fun h => ⟨h, exec_ldLoad_error x h⟩

theorem exec_drw_cases (x y n : Nibble) (s : State) :
    ((n = 0 ∨ s.i.toNat + n.toNat ≤ 0x1000) ∧
      exec (.drw x y n) s =
        .next ((s.advance.setDisp (drawn s x y n).1).setV 0xF (collisionFlag (drawn s x y n).2))) ∨
    ((n ≠ 0 ∧ 0x1000 < s.i.toNat + n.toNat) ∧
      exec (.drw x y n) s = .next (s.raise (.memoryAccessOutOfBounds (max s.i.toNat 0x1000)))) := by
  by_cases h : n = 0 ∨ s.i.toNat + n.toNat ≤ 0x1000
  · exact .inl ⟨h, exec_drw_ok x y n h⟩
  · obtain ⟨h0, hi⟩ := not_or.mp h
    exact .inr ⟨⟨h0, Nat.lt_of_not_le hi⟩, exec_drw_error x y n h0 (Nat.lt_of_not_le hi)⟩

theorem exec_ldVxK_cases (x : Nibble) (s : State) :
    (∃ k, s.lowestPressedKey = some k ∧
      exec (.ldVxK x) s = .next ((s.advance.setV x (k.setWidth 8)).setAwaitingKey false)) ∨
    (s.lowestPressedKey = none ∧ exec (.ldVxK x) s = .next (s.setAwaitingKey true)) := by
  cases h : s.lowestPressedKey with
  | some k => exact .inl ⟨k, rfl, exec_ldVxK_some x h⟩
  | none => exact .inr ⟨rfl, exec_ldVxK_none x h⟩

/-! ## What every instruction and every step leaves alone -/

/-- No instruction writes the keypad or the configuration (R34, R37). -/
theorem exec_keeps_key_config {i : Instr} {s t : State} (h : exec i s = .next t) :
    t.key = s.key ∧ t.config = s.config := by
  cases i with
  | call nnn =>
    obtain ⟨_, he⟩ | ⟨_, he⟩ := exec_call_cases nnn s <;> cases he.symm.trans h
    all_goals exact ⟨rfl, rfl⟩
  | ret =>
    obtain ⟨_, he⟩ | ⟨_, he⟩ := exec_ret_cases s <;> cases he.symm.trans h
    all_goals exact ⟨rfl, rfl⟩
  | ldB x =>
    obtain ⟨_, he⟩ | ⟨_, he⟩ := exec_ldB_cases x s <;> cases he.symm.trans h
    all_goals simp
  | ldStore x =>
    obtain ⟨_, he⟩ | ⟨_, he⟩ := exec_ldStore_cases x s <;> cases he.symm.trans h
    all_goals simp
  | ldLoad x =>
    obtain ⟨_, he⟩ | ⟨_, he⟩ := exec_ldLoad_cases x s <;> cases he.symm.trans h
    all_goals exact ⟨rfl, rfl⟩
  | drw x y n =>
    obtain ⟨_, he⟩ | ⟨_, he⟩ := exec_drw_cases x y n s <;> cases he.symm.trans h
    all_goals exact ⟨rfl, rfl⟩
  | ldVxK x =>
    obtain ⟨_, _, he⟩ | ⟨_, he⟩ := exec_ldVxK_cases x s <;> cases he.symm.trans h
    all_goals exact ⟨rfl, rfl⟩
  | _ =>
    -- Every other instruction has one outcome, which `exec` computes to.
    cases h; exact ⟨rfl, rfl⟩

/-- What raising an error and every instruction leave alone, every step leaves alone. -/
theorem step_keeps {α : Type} (f : State → α) (hraise : ∀ s e, f (s.raise e) = f s)
    (hexec : ∀ {i s t}, exec i s = .next t → f t = f s) {s t : State} (h : step s = .next t) : f t = f s := by
  obtain ⟨_, _, rfl⟩ | ⟨_, _, rfl⟩ | ⟨_, _, _, _, _, _, rfl⟩ | ⟨_, i, _, _, _, _, he⟩ := step_cases h
  · rfl
  · exact hraise _ _
  · exact hraise _ _
  · exact hexec he

theorem step_keeps_key {s t : State} (h : step s = .next t) : t.key = s.key :=
  step_keeps (·.key) State.raise_key (fun he => (exec_keeps_key_config he).1) h

theorem step_keeps_config {s t : State} (h : step s = .next t) : t.config = s.config :=
  step_keeps (·.config) State.raise_config (fun he => (exec_keeps_key_config he).2) h

/-! ## Replacing the keypad -/

/-- A change of the state that a write of one byte commutes with, a run of writes commutes with. -/
theorem State.writeBytes_comm {f : State → State} (hf : ∀ s a b, (f s).writeByte a b = f (s.writeByte a b))
    (s : State) (base : Nat) (bs : List Byte) : (f s).writeBytes base bs = f (s.writeBytes base bs) := by
  induction bs generalizing s base with
  | nil => rfl
  | cons b bs ih => rw [State.writeBytes, State.writeBytes, hf, ih]

/-- The keypad replaced. -/
def State.withKeypad (s : State) (k : Vector Bool 16) : State := { s with key := k }

theorem State.writeBytes_withKeypad (s : State) (k : Vector Bool 16) (base : Nat) (bs : List Byte) :
    (s.withKeypad k).writeBytes base bs = (s.writeBytes base bs).withKeypad k :=
  State.writeBytes_comm (f := (·.withKeypad k)) (fun _ _ _ => rfl) s base bs

/-- An instruction other than SKP, SKNP and LD Vx, K does the same whatever the keypad holds (R34). -/
theorem exec_withKeypad {i : Instr} {s t : State} (k : Vector Bool 16) (hskp : ∀ x, i ≠ .skp x)
    (hsknp : ∀ x, i ≠ .sknp x) (hwait : ∀ x, i ≠ .ldVxK x) (h : exec i s = .next t) :
    exec i (s.withKeypad k) = .next (t.withKeypad k) := by
  cases i with
  | skp x => exact absurd rfl (hskp x)
  | sknp x => exact absurd rfl (hsknp x)
  | ldVxK x => exact absurd rfl (hwait x)
  | call nnn =>
    obtain ⟨hsp, he⟩ | ⟨hsp, he⟩ := exec_call_cases nnn s <;> cases he.symm.trans h
    · exact exec_call_ok nnn (s.withKeypad k) hsp
    · exact exec_call_full nnn (s.withKeypad k) hsp
  | ret =>
    obtain ⟨hsp, he⟩ | ⟨hsp, he⟩ := exec_ret_cases s <;> cases he.symm.trans h
    · exact exec_ret_ok (s.withKeypad k) hsp
    · exact exec_ret_empty (s.withKeypad k) hsp
  | ldB x =>
    obtain ⟨hi, he⟩ | ⟨hi, he⟩ := exec_ldB_cases x s <;> cases he.symm.trans h
    · have hw := State.writeBytes_withKeypad s.advance k s.i.toNat (bcdDigits (s.getV x))
      rw [exec_ldB_ok x (s := s.withKeypad k) hi]
      exact congrArg Host.Outcome.next hw
    · exact exec_ldB_error x (s := s.withKeypad k) hi
  | ldStore x =>
    obtain ⟨hi, he⟩ | ⟨hi, he⟩ := exec_ldStore_cases x s <;> cases he.symm.trans h
    · have hw := State.writeBytes_withKeypad s.advance k s.i.toNat (dumpedBytes s x)
      rw [exec_ldStore_ok x (s := s.withKeypad k) hi]
      exact congrArg (fun u => Host.Outcome.next (u.setI (indexAfter s x))) hw
    · exact exec_ldStore_error x (s := s.withKeypad k) hi
  | ldLoad x =>
    obtain ⟨hi, he⟩ | ⟨hi, he⟩ := exec_ldLoad_cases x s <;> cases he.symm.trans h
    · exact exec_ldLoad_ok x (s := s.withKeypad k) hi
    · exact exec_ldLoad_error x (s := s.withKeypad k) hi
  | drw x y n =>
    obtain ⟨hi, he⟩ | ⟨⟨hn, hi⟩, he⟩ := exec_drw_cases x y n s <;> cases he.symm.trans h
    · exact exec_drw_ok x y n (s := s.withKeypad k) hi
    · exact exec_drw_error x y n (s := s.withKeypad k) hn hi
  | _ => cases h; rfl

end Sys2Proof.Machine
end

section
/-! The statements about the state, its configuration and the host's operations, settled. -/

namespace Sys2Proof.Machine

/-- Settles O18, from what every step leaves alone and an instruction's run on a replaced keypad. -/
theorem onlyTheHostWritesTheKeypad : Obligations.OnlyTheHostWritesTheKeypad := by
  unfold Obligations.OnlyTheHostWritesTheKeypad
  refine ⟨?_, ?_, ?_⟩
  · intro op s t r hset hreset h
    cases op with
    | setKey k b => exact absurd rfl (hset k b)
    | reset c => exact absurd rfl (hreset c)
    | step => exact step_keeps_key (perform_step_iff.mp h).1
    | load rom => cases h; exact s.load_key rom
    | tick | readDisplay | readSound | readStatus => cases h; rfl
  · intro i s t k hskp hsknp hwait h
    exact exec_withKeypad k hskp hsknp hwait h
  · intro s k b
    exact ⟨s.setKey k b, perform_setKey s k b, by simp⟩

/-- Settles O21: RESET sets the configuration, and neither a step nor another operation of the host writes it. -/
theorem configurationIsConstant : Obligations.ConfigurationIsConstant := by
  unfold Obligations.ConfigurationIsConstant
  refine ⟨fun _ _ => step_keeps_config, ?_⟩
  intro op s t r h
  cases op with
  | reset c => obtain ⟨-, rfl, -⟩ := perform_reset_iff.mp h; rfl
  | step => exact step_keeps_config (perform_step_iff.mp h).1
  | setKey k b => obtain ⟨-, rfl, -⟩ := perform_setKey_iff.mp h; rfl
  | load rom => cases h; exact s.load_config rom
  | tick | readDisplay | readSound | readStatus => cases h; rfl

/-- Settles O57: READ_DISPLAY answers the framebuffer's rows end to end. -/
theorem hostReadsReportTheState : Obligations.HostReadsReportTheState := by
  unfold Obligations.HostReadsReportTheState
  intro s
  exact ⟨⟨s.displayGrid, rfl, s.displayGrid_length, s.displayGrid_getElem?⟩, rfl, rfl⟩

/-- Settles O58: the state RESET leaves, read field by field. -/
theorem resetLeavesTheResetValues : Obligations.ResetLeavesTheResetValues := by
  unfold Obligations.ResetLeavesTheResetValues
  intro s c hc
  exact ⟨s.resetPort c, perform_reset_iff.mpr ⟨hc, rfl, rfl⟩, s.getV_resetPort c, rfl, rfl, rfl,
    s.stack_resetPort c, rfl, rfl, fun j => (s.readByte_resetPort c _).trans (resetByte_font c j),
    fun a ha => (s.readByte_resetPort c a).trans (resetByte_outside_font ha), s.pixel_resetPort c, s.getKey_resetPort c,
    rfl, rfl, rfl⟩

end Sys2Proof.Machine
end

section
/-! SUPPORT. The bytes and the frame of a written run, what LOAD answers, and the fetch in the words of R66. -/

namespace Sys2Proof.Machine

/-- A written run reads back byte by byte. -/
theorem State.readByte_writeBytes_at (s : State) (base : Nat) {bs : List Byte} {k : Nat} (h : k < bs.length) :
    (s.writeBytes base bs).readByte (base + k) = bs[k] := by
  rw [State.readByte_writeBytes, if_pos (by omega), Nat.add_sub_cancel_left, List.getD_eq_getElem bs 0 h]

/-- The frame of a written run: only the bytes of the run change. -/
theorem State.writeBytes_frame (s : State) (base : Nat) (bs : List Byte) :
    SameExcept (fun p => ∃ k, k < bs.length ∧ p = .byte (base + k)) s (s.writeBytes base bs) := by
  intro p hp
  cases p with
  | byte a =>
    refine s.readByte_writeBytes_outside fun ⟨hlo, hhi⟩ => hp ⟨a - base, by omega, ?_⟩
    rw [Nat.add_sub_cancel' hlo]
  | _ => simp [Part.same]

/-- LOAD of a ROM that fits writes it from 0x200 on (R71). -/
theorem perform_load_ok (s : State) {rom : List Byte} (h : rom.length ≤ romMax) :
    perform (.load rom) s = .next (s.writeBytes progStart rom, .result none) := by
  obtain ⟨hgt, -⟩ | ⟨-, he⟩ := s.load_cases rom
  · exact absurd h (Nat.not_le_of_gt hgt)
  · simp [perform, he]

/-- LOAD of a ROM that does not fit leaves the whole state, Fault included (R72). -/
theorem perform_load_tooLarge (s : State) {rom : List Byte} (h : romMax < rom.length) :
    perform (.load rom) s = .next (s, .result (some (.romTooLarge rom.length))) := by
  obtain ⟨-, he⟩ | ⟨hle, -⟩ := s.load_cases rom
  · simp [perform, he]
  · exact absurd h (Nat.not_lt_of_ge hle)

/-- With both bytes in RAM the fetch is the big-endian word of R66. -/
theorem State.fetch_eq_shift_or {s : State} (h : s.pc.toNat ≤ 0xFFE) :
    s.fetch = .ok (((s.readByte s.pc.toNat).setWidth 16 <<< 8) ||| (s.readByte (s.pc.toNat + 1)).setWidth 16) := by
  rw [State.fetch_eq, if_pos h, wordOfBytes_eq_shift_or]

end Sys2Proof.Machine
end

section
/-! The statements about LOAD and the fetched word, settled. -/

namespace Sys2Proof.Machine

/-- Settles O55: LOAD is a written run at 0x200, or leaves the state as it was. -/
theorem loadCopiesTheRomOrRefusesIt : Obligations.LoadCopiesTheRomOrRefusesIt := by
  unfold Obligations.LoadCopiesTheRomOrRefusesIt
  intro s rom
  refine ⟨fun hfits => ?_, fun hlarge => perform_load_tooLarge s hlarge⟩
  exact ⟨s.writeBytes progStart rom, perform_load_ok s hfits, fun _ hk => s.readByte_writeBytes_at progStart hk,
    s.writeBytes_frame progStart rom⟩

/-- Settles O5: the fetch gives the big-endian word, and a step runs the instruction it decodes to. -/
theorem stepRunsTheDecodedInstruction : Obligations.StepRunsTheDecodedInstruction := by
  unfold Obligations.StepRunsTheDecodedInstruction
  intro s i hfault hpc hdecode
  exact step_exec hfault (State.fetch_eq_shift_or hpc) hdecode

end Sys2Proof.Machine
end

section
/-! The statements about a step that fails in its fetch or its decode, settled. -/

namespace Sys2Proof.Machine

/-- Settles O6: inside RAM the fetch is the big-endian word, and outside it the step raises the lowest bad address. -/
theorem fetchReadsTwoBytesOrIsRecorded : Obligations.FetchReadsTwoBytesOrIsRecorded := by
  unfold Obligations.FetchReadsTwoBytesOrIsRecorded
  intro s hfault
  exact ⟨fun hinside => State.fetch_eq_shift_or hinside, fun houtside => step_fetch_error hfault houtside⟩

/-- Settles O7: the error of the decoder is raised on the state before the fetch advance. -/
theorem unknownOpcodeIsRecorded : Obligations.UnknownOpcodeIsRecorded := by
  unfold Obligations.UnknownOpcodeIsRecorded
  intro s op e hfault hfetch hdecode
  exact step_unknown hfault hfetch hdecode

end Sys2Proof.Machine
end

section
/-! SUPPORT. Decoding an instruction's own word, and the frames of the control transfers: what writing PC, a skip, CALL
and RET leave unchanged. -/

namespace Sys2Proof

/-- The decoder reads every instruction back from its word, at every operand value (R95, R96). -/
theorem decode_encode (i : Instr) : decode (encode i) = .ok i := by
  cases i with
  | cls | ret => decide
  | jp | call | ldI | jpV0 => simp [encode, decode]
  | seImm | sneImm | ldImm | addImm | rnd => simp [encode, decode]
  | seReg | sneReg | drw => simp [encode, decode]
  | ldReg | orReg | andReg | xorReg | addReg | sub | shr | subn | shl => simp [encode, decode, decodeFamily8]
  | skp | sknp => simp [encode, decode, decodeFamilyE]
  | ldVxDt | ldVxK | ldDt | ldSt | addI | ldF | ldB | ldStore | ldLoad => simp [encode, decode, decodeFamilyF]

end Sys2Proof

namespace Sys2Proof.Machine

/-- Writing PC touches no other part. A write overrides the fetch advance, `s.advance.setPc w` being `s.setPc w` by
definition, so this is the frame of every jump and skip. -/
theorem State.setPc_frame (s : State) (w : Word) : SameExcept (· ∈ [.pc]) s (s.setPc w) := by
  intro p hp
  cases p with
  | pc => exact absurd (List.mem_singleton_self _) hp
  | _ => rfl

/-- A skip on the advanced PC, as one write of PC (R130). -/
theorem State.advance_skip (s : State) (c : Bool) :
    s.advance.skip c = s.setPc (if c then s.pc + 2 + 2 else s.pc + 2) := rfl

/-- An instruction that is a skip on `P` adds 2 more to PC exactly when `P` holds, and touches nothing else (R130). -/
theorem skip_spec {i : Instr} {s : State} {P : Prop} [Decidable P]
    (h : exec i s = .next (s.advance.skip (decide P))) :
    ∃ t, exec i s = .next t ∧ t.pc = (if P then s.pc + 2 + 2 else s.pc + 2) ∧ SameExcept (· ∈ [.pc]) s t := by
  rw [State.advance_skip] at h
  exact ⟨_, h, by simp, s.setPc_frame _⟩

/-- NNN plus a register is at most 0x10FE, so the sum is exact (R138). -/
theorem toNat_addrImm_add_wideV (nnn : Addr12) (s : State) (x : Nibble) :
    (addrImm nnn + wideV s x).toNat = nnn.toNat + (s.getV x).toNat := by
  have := nnn.isLt
  have := (s.getV x).isLt
  rw [BitVec.toNat_add, toNat_addrImm, toNat_wideV, Nat.mod_eq_of_lt (by omega)]

/-- CALL touches PC, SP and the stack entry it pushes, no other entry (R29, R132). -/
theorem call_frame (s : State) (v w : Word) (h : s.sp.val < 16) :
    SameExcept (· ∈ [.pc, .sp, .stack ⟨s.sp.val, h⟩]) s
      { s with stack := s.stack.set s.sp.val v h, sp := ⟨s.sp.val + 1, by omega⟩, pc := w } := by
  intro p hp
  cases p with
  | pc | sp => simp at hp
  | stack k =>
    have hk : s.sp.val ≠ k.val := fun e => hp (by simp [e])
    exact Vector.getElem_set_ne h k.isLt hk
  | _ => rfl

/-- RET touches PC and SP and leaves the entry it pops in place (R29, R133). -/
theorem ret_frame (s : State) (n : Fin 17) (w : Word) : SameExcept (· ∈ [.pc, .sp]) s { s with sp := n, pc := w } := by
  intro p hp
  cases p with
  | pc | sp => simp at hp
  | _ => rfl

end Sys2Proof.Machine
end

section
/-! The statements about the jumps, CALL, RET and the compare skips, settled. -/

namespace Sys2Proof.Machine

/-- Settles O33: both jumps are one write of PC, and the sum of JP V0 does not wrap. -/
theorem jumpsSetThePc : Obligations.JumpsSetThePc := by
  unfold Obligations.JumpsSetThePc
  intro s nnn
  exact ⟨⟨decode_encode (.jp nnn), _, exec_jp nnn s, toNat_addrImm nnn, s.setPc_frame _⟩,
    ⟨decode_encode (.jpV0 nnn), _, exec_jpV0 nnn s, toNat_addrImm_add_wideV nnn s 0, s.setPc_frame _⟩⟩

/-- Settles O34: below depth 16 CALL pushes the advanced PC, at depth 16 it raises StackOverflow on the old state. -/
theorem callPushesTheReturnAddress : Obligations.CallPushesTheReturnAddress := by
  unfold Obligations.CallPushesTheReturnAddress
  intro s nnn
  refine ⟨decode_encode (.call nnn), fun hroom => ?_, fun hfull => exec_call_full nnn s hfull⟩
  exact ⟨_, exec_call_ok nnn s hroom, Vector.getElem_set_self hroom, rfl, toNat_addrImm nnn, call_frame s _ _ hroom⟩

/-- Settles O35: above depth 0 RET pops into PC, at depth 0 it raises StackUnderflow on the old state. -/
theorem returnPopsThePc : Obligations.ReturnPopsThePc := by
  unfold Obligations.ReturnPopsThePc
  intro s
  refine ⟨decode_encode .ret, fun hused => ?_, fun hempty => exec_ret_empty s hempty⟩
  exact ⟨_, exec_ret_ok s hused, rfl, rfl, ret_frame s _ _⟩

/-- Settles O37: each compare is a skip on its own condition. -/
theorem compareSkipsPassOneWord : Obligations.CompareSkipsPassOneWord := by
  unfold Obligations.CompareSkipsPassOneWord
  intro s x y nn
  exact ⟨⟨decode_encode (.seImm x nn), skip_spec (exec_seImm x nn s)⟩,
    ⟨decode_encode (.sneImm x nn), skip_spec (exec_sneImm x nn s)⟩,
    ⟨decode_encode (.seReg x y), skip_spec (exec_seReg x y s)⟩,
    ⟨decode_encode (.sneReg x y), skip_spec (exec_sneReg x y s)⟩⟩

end Sys2Proof.Machine
end

section
/-! SUPPORT. What arithmetic and logic write, read as numbers: the flags, the wrapped difference and the shift operand;
and the frames of a register write and of a result with its flag. -/

namespace Sys2Proof.Machine

/-! ## The flags and the shift operand -/

theorem addFlag_eq (a b : Byte) : addFlag a b = if 255 < a.toNat + b.toNat then 1 else 0 := by
  simp [addFlag, boolByte]

theorem subFlag_notBorrow (a b : Byte) : subFlag .notBorrow a b = if b.toNat ≤ a.toNat then 1 else 0 := by
  simp [subFlag, boolByte]

theorem subFlag_borrow (a b : Byte) : subFlag .borrow a b = if a.toNat < b.toNat then 1 else 0 := by
  simp [subFlag, boolByte]

/-- The flag of SHR is bit 0 (R175). -/
theorem toNat_shrFlag (src : Byte) : (shrFlag src).toNat = src.toNat % 2 := by
  rw [shrFlag, BitVec.toNat_and]
  exact Nat.and_one_is_mod _

/-- The flag of SHL is bit 7 (R180). -/
theorem toNat_shlFlag (src : Byte) : (shlFlag src).toNat = src.toNat / 128 := by
  rw [shlFlag, BitVec.toNat_ushiftRight, Nat.shiftRight_eq_div_pow]

/-- A difference modulo 256, written without a negative number (R170). -/
theorem toNat_sub_byte (a b : Byte) : (a - b).toNat = (a.toNat + 256 - b.toNat) % 256 := by
  have := b.isLt
  rw [BitVec.toNat_sub']
  congr 1
  omega

theorem shiftSource_modern {s : State} {x y : Nibble} (h : s.config.quirkMode = .modern) :
    shiftSource s x y = s.getV x := by simp [shiftSource, h]

theorem shiftSource_legacy {s : State} {x y : Nibble} (h : s.config.quirkMode = .legacy) :
    shiftSource s x y = s.getV y := by simp [shiftSource, h]

/-! ## A register write -/

/-- Writing a register touches no other part. -/
theorem State.setV_frame (s : State) (x : Nibble) (b : Byte) : SameExcept (· ∈ [.reg x]) s (s.setV x b) := by
  intro p hp
  cases p with
  | reg y =>
    have hy : y ≠ x := fun e => hp (by simp [e])
    simp [Part.same, hy]
  | _ => rfl

/-- The fetch advance and a register write touch PC and that register. -/
theorem State.advance_setV_frame (s : State) (x : Nibble) (b : Byte) :
    SameExcept (· ∈ [.pc, .reg x]) s (s.advance.setV x b) :=
  ((s.setPc_frame _).mono (by simp)).trans ((s.advance.setV_frame x b).mono (by simp))

/-- An instruction that writes `b` to VX: what VX and PC hold after it, and its frame. -/
theorem setV_spec {i : Instr} {s : State} {x : Nibble} {b : Byte} (h : exec i s = .next (s.advance.setV x b)) :
    ∃ t, exec i s = .next t ∧ t.getV x = b ∧ t.pc = s.pc + 2 ∧ SameExcept (· ∈ [.pc, .reg x]) s t :=
  ⟨_, h, by simp, rfl, s.advance_setV_frame x b⟩

/-! ## A result and its flag -/

/-- The fetch advance, a result and its flag touch PC, the result's register and VF. -/
theorem State.advance_setVThenFlag_frame (s : State) (x : Nibble) (r f : Byte) :
    SameExcept (· ∈ [.pc, .reg x, .reg 0xF]) s (s.advance.setVThenFlag x r f) :=
  ((s.advance_setV_frame x r).mono (by simp +contextual)).trans
    (((s.advance.setV x r).setV_frame 0xF f).mono (by simp))

/-- An instruction that writes `r` to VX and then `f` to VF, so that VF holds the flag even when X = F (R22, R160). -/
theorem setVThenFlag_spec {i : Instr} {s : State} {x : Nibble} {r f : Byte}
    (h : exec i s = .next (s.advance.setVThenFlag x r f)) :
    ∃ t, exec i s = .next t ∧ t.getV 0xF = f ∧ (x ≠ 0xF → t.getV x = r) ∧ t.pc = s.pc + 2 ∧
      SameExcept (· ∈ [.pc, .reg x, .reg 0xF]) s t := by
  refine ⟨_, h, ?_, fun hx => ?_, rfl, s.advance_setVThenFlag_frame x r f⟩
  · rw [State.getV_setVThenFlag, if_pos rfl]
  · rw [State.getV_setVThenFlag, if_neg hx, if_pos rfl]

/-- An instruction that writes `a - b` to VX and its borrow flag to VF, as SUB and SUBN do (R170, R178). -/
theorem subtract_spec {i : Instr} {s : State} {x : Nibble} {a b : Byte}
    (h : exec i s = .next (s.advance.setVThenFlag x (a - b) (subFlag s.config.subFlagPolarity a b))) :
    ∃ t, exec i s = .next t ∧
      (s.config.subFlagPolarity = .notBorrow → t.getV 0xF = if b.toNat ≤ a.toNat then 1 else 0) ∧
      (s.config.subFlagPolarity = .borrow → t.getV 0xF = if a.toNat < b.toNat then 1 else 0) ∧
      (x ≠ 0xF → (t.getV x).toNat = (a.toNat + 256 - b.toNat) % 256) ∧
      t.pc = s.pc + 2 ∧ SameExcept (· ∈ [.pc, .reg x, .reg 0xF]) s t := by
  obtain ⟨t, hexec, hflag, hresult, hpc, hframe⟩ := setVThenFlag_spec h
  refine ⟨t, hexec, fun hpol => ?_, fun hpol => ?_, fun hx => ?_, hpc, hframe⟩
  · rw [hflag, hpol, subFlag_notBorrow]
  · rw [hflag, hpol, subFlag_borrow]
  · rw [hresult hx, toNat_sub_byte]

end Sys2Proof.Machine
end

section
/-! The statements about arithmetic and logic, settled. -/

namespace Sys2Proof.Machine

/-- Settles O27: the result and then the flag are written, the flag being the carry. -/
theorem addWithCarryFlagsOverflow : Obligations.AddWithCarryFlagsOverflow := by
  unfold Obligations.AddWithCarryFlagsOverflow
  intro s x y
  obtain ⟨t, hexec, hflag, hresult, hpc, hframe⟩ := setVThenFlag_spec (exec_addReg x y s)
  exact ⟨decode_encode (.addReg x y), t, hexec, by rw [hflag, addFlag_eq],
    fun hx => by rw [hresult hx, BitVec.toNat_add], hpc, hframe⟩

/-- Settles O28: SUB subtracts VY from VX. -/
theorem subtractWrapsAndFlagsBorrow : Obligations.SubtractWrapsAndFlagsBorrow := by
  unfold Obligations.SubtractWrapsAndFlagsBorrow
  intro s x y
  exact ⟨decode_encode (.sub x y), subtract_spec (exec_sub x y s)⟩

/-- Settles O29: SUBN is SUB's subtraction with its operands exchanged. -/
theorem reverseSubtractWrapsAndFlagsBorrow : Obligations.ReverseSubtractWrapsAndFlagsBorrow := by
  unfold Obligations.ReverseSubtractWrapsAndFlagsBorrow
  intro s x y
  exact ⟨decode_encode (.subn x y), subtract_spec (exec_subn x y s)⟩

/-- Settles O30: the source is `shiftSource`, and its shift right by one is its half. -/
theorem shiftRightHalves : Obligations.ShiftRightHalves := by
  unfold Obligations.ShiftRightHalves
  intro s x y
  obtain ⟨t, hexec, hflag, hresult, hpc, hframe⟩ := setVThenFlag_spec (exec_shr x y s)
  refine ⟨decode_encode (.shr x y), t, shiftSource s x y, hexec, shiftSource_modern, shiftSource_legacy, ?_,
    fun hx => ?_, hpc, hframe⟩
  · rw [hflag, toNat_shrFlag]
  · rw [hresult hx, BitVec.toNat_ushiftRight, Nat.shiftRight_one]

/-- Settles O31: the source is `shiftSource`, and its shift left by one is its double modulo 256. -/
theorem shiftLeftDoubles : Obligations.ShiftLeftDoubles := by
  unfold Obligations.ShiftLeftDoubles
  intro s x y
  obtain ⟨t, hexec, hflag, hresult, hpc, hframe⟩ := setVThenFlag_spec (exec_shl x y s)
  refine ⟨decode_encode (.shl x y), t, shiftSource s x y, hexec, shiftSource_modern, shiftSource_legacy, ?_,
    fun hx => ?_, hpc, hframe⟩
  · rw [hflag, toNat_shlFlag]
  · rw [hresult hx, BitVec.toNat_shiftLeft, Nat.shiftLeft_eq, pow_one, Nat.mul_comm]

/-- Settles O24: both loads are one register write. -/
theorem loadsWriteTheirRegister : Obligations.LoadsWriteTheirRegister := by
  unfold Obligations.LoadsWriteTheirRegister
  intro s x y nn
  exact ⟨⟨decode_encode (.ldImm x nn), setV_spec (exec_ldImm x nn s)⟩,
    ⟨decode_encode (.ldReg x y), setV_spec (exec_ldReg x y s)⟩⟩

/-- Settles O25: the immediate add is one register write of the wrapped sum. -/
theorem addImmediateWrapsWithoutFlag : Obligations.AddImmediateWrapsWithoutFlag := by
  unfold Obligations.AddImmediateWrapsWithoutFlag
  intro s x nn
  obtain ⟨t, hexec, hx, hpc, hframe⟩ := setV_spec (exec_addImm x nn s)
  exact ⟨decode_encode (.addImm x nn), t, hexec, by rw [hx, BitVec.toNat_add], hpc, hframe⟩

/-- Settles O26: each logic instruction is one register write. -/
theorem logicWritesNoFlag : Obligations.LogicWritesNoFlag := by
  unfold Obligations.LogicWritesNoFlag
  intro s x y
  exact ⟨⟨decode_encode (.orReg x y), setV_spec (exec_orReg x y s)⟩,
    ⟨decode_encode (.andReg x y), setV_spec (exec_andReg x y s)⟩,
    ⟨decode_encode (.xorReg x y), setV_spec (exec_xorReg x y s)⟩⟩

end Sys2Proof.Machine
end

section
/-! SUPPORT. What the memory and index instructions write, read as numbers: the glyph address, the decimal digits and I
after a register run; and the frames of a write of I, of a run stored to RAM and of a run loaded from it. -/

namespace Sys2Proof.Machine

/-! ## A write of I -/

/-- Writing I touches no other part. -/
theorem State.setI_frame (s : State) (w : Word) : SameExcept (· ∈ [.index]) s (s.setI w) := by
  intro p hp
  cases p with
  | index => exact absurd (List.mem_singleton_self _) hp
  | _ => rfl

/-- An instruction that writes `w` to I: what I and PC hold after it, and its frame. -/
theorem setI_spec {i : Instr} {s : State} {w : Word} (h : exec i s = .next (s.advance.setI w)) :
    ∃ t, exec i s = .next t ∧ t.i = w ∧ t.pc = s.pc + 2 ∧ SameExcept (· ∈ [.pc, .index]) s t :=
  ⟨_, h, rfl, rfl, ((s.setPc_frame _).mono (by simp)).trans ((s.advance.setI_frame w).mono (by simp))⟩

/-- With FONT_BASE in its range a glyph's address does not wrap (R41, R202). -/
theorem toNat_glyphAddr {c : Config} (hc : c.wellFormed = true) (d : Nibble) :
    (glyphAddr c d).toNat = c.fontBase.toNat + 5 * d.toNat := by
  have hbase : c.fontBase.toNat ≤ 0x1B0 := of_decide_eq_true hc
  simp only [glyphAddr]
  bv_omega

theorem indexAfter_modern {s : State} (x : Nibble) (h : s.config.quirkMode = .modern) : indexAfter s x = s.i := by
  simp [indexAfter, h]

theorem toNat_indexAfter_legacy {s : State} (x : Nibble) (h : s.config.quirkMode = .legacy) :
    (indexAfter s x).toNat = (s.i.toNat + x.toNat + 1) % 65536 := by
  simp only [indexAfter, h]
  bv_omega

/-! ## A run of bytes stored to RAM -/

/-- The fetch advance and a written run touch PC and the bytes of the run. -/
theorem State.advance_writeBytes_frame (s : State) (base : Nat) (bs : List Byte) :
    SameExcept (fun p => p = .pc ∨ ∃ k, k < bs.length ∧ p = .byte (base + k)) s (s.advance.writeBytes base bs) :=
  ((s.setPc_frame _).mono (by simp)).trans ((s.advance.writeBytes_frame base bs).mono fun _ => .inr)

/-- The digits of a byte are below 256, so the bytes that store them hold them exactly (R205). -/
theorem toNat_bcdDigits (v : Byte) :
    (bcdDigits v)[0].toNat = v.toNat / 100 ∧ (bcdDigits v)[1].toNat = v.toNat / 10 % 10 ∧
      (bcdDigits v)[2].toNat = v.toNat % 10 := by
  have hv := v.isLt
  simp only [bcdDigits, List.getElem_cons_zero, List.getElem_cons_succ, BitVec.toNat_ofNat]
  omega

/-- Byte k of a dump written to RAM reads as register k (R210). -/
theorem readByte_writeBytes_dumpedBytes (s u : State) {x k : Nibble} (hk : k.toNat ≤ x.toNat) (base : Nat) :
    (u.writeBytes base (dumpedBytes s x)).readByte (base + k.toNat) = s.getV k := by
  have hlen : k.toNat < (dumpedBytes s x).length := by rw [dumpedBytes_length]; omega
  rw [State.readByte_writeBytes_at u base hlen, ← List.getD_eq_getElem _ 0 hlen, dumpedBytes_getD s x k hk]

/-- LD [I], Vx touches PC, I and the bytes it stores to. -/
theorem ldStore_frame (s : State) (x : Nibble) (w : Word) :
    SameExcept (fun p => p = .pc ∨ p = .index ∨ ∃ k, k ≤ x.toNat ∧ p = .byte (indexAddr s k)) s
      ((s.advance.writeBytes s.i.toNat (dumpedBytes s x)).setI w) := by
  refine SameExcept.trans ((s.advance_writeBytes_frame _ _).mono ?_) ((State.setI_frame _ w).mono (by simp))
  rintro p (hpc | ⟨k, hk, hbyte⟩)
  · exact .inl hpc
  · rw [dumpedBytes_length] at hk
    exact .inr (.inr ⟨k, Nat.le_of_lt_succ hk, hbyte⟩)

/-! ## A run of registers loaded from RAM -/

/-- LD Vx, [I] touches PC, I and the registers it loads. -/
theorem ldLoad_frame (s : State) (x : Nibble) (pc i : Word) :
    SameExcept (fun p => p = .pc ∨ p = .index ∨ ∃ k : Nibble, k.toNat ≤ x.toNat ∧ p = .reg k) s
      { s with v := loadedRegs s x, pc := pc, i := i } := by
  intro p hp
  cases p with
  | pc => exact absurd (.inl rfl) hp
  | index => exact absurd (.inr (.inl rfl)) hp
  | reg k =>
    have hk : ¬ k.toNat ≤ x.toNat := fun h => hp (.inr (.inr ⟨k, h, rfl⟩))
    exact (getV_loadedRegs s x k).trans (if_neg hk)
  | _ => rfl

end Sys2Proof.Machine
end

section
/-! The statements about memory and the index register, settled. -/

namespace Sys2Proof.Machine

/-- Settles O40: the digits are one written run, checked before any byte is touched. -/
theorem bcdStoresThreeDigits : Obligations.BcdStoresThreeDigits := by
  unfold Obligations.BcdStoresThreeDigits
  intro s x
  refine ⟨decode_encode (.ldB x), fun hin => ?_, fun hout => exec_ldB_error x hout⟩
  obtain ⟨hundreds, tens, ones⟩ := toNat_bcdDigits (s.getV x)
  have hread {k : Nat} (hk : k < 3) :
      (s.advance.writeBytes s.i.toNat (bcdDigits (s.getV x))).readByte (indexAddr s k) = (bcdDigits (s.getV x))[k] :=
    State.readByte_writeBytes_at _ _ hk
  refine ⟨_, exec_ldB_ok x hin, ?_, ?_, ?_, by simp,
    s.advance_writeBytes_frame s.i.toNat (bcdDigits (s.getV x))⟩
  · rw [hread (by decide), hundreds]
  · rw [hread (by decide), tens]
  · rw [hread (by decide), ones]

/-- Settles O41: the dump is one written run and a write of I, checked before any byte is touched. -/
theorem registerDumpStoresThePrefix : Obligations.RegisterDumpStoresThePrefix := by
  unfold Obligations.RegisterDumpStoresThePrefix
  intro s x
  refine ⟨decode_encode (.ldStore x), fun hin => ?_, fun hout => exec_ldStore_error x hout⟩
  exact ⟨_, exec_ldStore_ok x hin, fun _ hk => readByte_writeBytes_dumpedBytes s s.advance hk _,
    indexAfter_modern x, toNat_indexAfter_legacy x, by simp, ldStore_frame s x _⟩

/-- Settles O42: the load replaces the registers up to VX and writes I, checked before any byte is read. -/
theorem registerLoadReadsThePrefix : Obligations.RegisterLoadReadsThePrefix := by
  unfold Obligations.RegisterLoadReadsThePrefix
  intro s x
  refine ⟨decode_encode (.ldLoad x), fun hin => ?_, fun hout => exec_ldLoad_error x hout⟩
  exact ⟨_, exec_ldLoad_ok x hin, fun k hk => (getV_loadedRegs s x k).trans (if_pos hk),
    indexAfter_modern x, toNat_indexAfter_legacy x, rfl, ldLoad_frame s x _ _⟩

/-- Settles O38: both instructions are one write of I, of NNN and of the wrapped sum. -/
theorem indexLoadAndAdd : Obligations.IndexLoadAndAdd := by
  unfold Obligations.IndexLoadAndAdd
  intro s nnn x
  obtain ⟨t, hload, hnnn, hloadPc, hloadFrame⟩ := setI_spec (exec_ldI nnn s)
  obtain ⟨u, hadd, hsum, haddPc, haddFrame⟩ := setI_spec (exec_addI x s)
  exact ⟨⟨decode_encode (.ldI nnn), t, hload, by rw [hnnn, toNat_addrImm], hloadPc, hloadFrame⟩,
    ⟨decode_encode (.addI x), u, hadd, by rw [hsum, BitVec.toNat_add, toNat_wideV], haddPc, haddFrame⟩⟩

/-- Settles O39: one write of I, of a glyph address that does not wrap. -/
theorem fontIndexIsTheGlyphAddress : Obligations.FontIndexIsTheGlyphAddress := by
  unfold Obligations.FontIndexIsTheGlyphAddress
  intro s x hc
  obtain ⟨t, hexec, hglyph, hpc, hframe⟩ := setI_spec (exec_ldF x s)
  exact ⟨decode_encode (.ldF x), t, hexec, by rw [hglyph, toNat_glyphAddr hc, toNat_lowNibble], hpc, hframe⟩

end Sys2Proof.Machine
end

section
/-! SUPPORT. The framebuffer of CLS and DRW: which pixels a draw inverts and when it collides, what an instruction does
on a replaced framebuffer, and the frames of a framebuffer write. -/

namespace Sys2Proof.Machine

/-! ## What DRW draws -/

open Classical in
/-- DRW inverts exactly the pixels its sprite covers (R232). -/
theorem pixel_drawn (s : State) (x y n : Nibble) (px : Fin 64) (py : Fin 32) :
    (drawn s x y n).1.pixel px py = (s.disp.pixel px py ^^ decide
      (spriteCovers (s.readBytes s.i.toNat n.toNat) (s.getV x).toNat (s.getV y).toNat px py)) :=
  Drawing.pixel_rows _ _ _ _ (by rw [State.readBytes_length]; omega) px py

/-- The sprite of bytes read from `base` covers the pixels its set bits land on after wrapping (R233). -/
theorem spriteCovers_readBytes (s : State) (base n x0 y0 : Nat) (px : Fin 64) (py : Fin 32) :
    spriteCovers (s.readBytes base n) x0 y0 px py ↔
      ∃ r c, r < n ∧ c < 8 ∧ (s.readByte (base + r)).getLsbD (7 - c) = true ∧
        px.val = (x0 + c) % 64 ∧ py.val = (y0 + r) % 32 := by
  have hbyte {r : Nat} (hr : r < n) : (s.readBytes base n).getD r 0 = s.readByte (base + r) := by
    rw [List.getD_eq_getElem _ 0 (by rwa [State.readBytes_length]), State.readBytes_getElem]
  unfold spriteCovers
  refine exists_congr fun r => exists_congr fun c => ?_
  rw [State.readBytes_length, eq_comm (a := px.val), eq_comm (a := py.val)]
  exact and_congr_right fun hr => by rw [hbyte hr]

/-- A pixel differs after a draw exactly when the sprite covers it. -/
theorem pixel_drawn_ne_iff (s : State) (x y n : Nibble) (px : Fin 64) (py : Fin 32) :
    (drawn s x y n).1.pixel px py ≠ s.disp.pixel px py ↔
      spriteCovers (s.readBytes s.i.toNat n.toNat) (s.getV x).toNat (s.getV y).toNat px py := by
  classical
  rw [pixel_drawn]
  by_cases h : spriteCovers (s.readBytes s.i.toNat n.toNat) (s.getV x).toNat (s.getV y).toNat px py <;> simp [h]

/-- DRW collides exactly when its sprite covers a set pixel (R234). -/
theorem drawn_collision_iff_covers (s : State) (x y n : Nibble) :
    (drawn s x y n).2 = true ↔ ∃ px py,
      spriteCovers (s.readBytes s.i.toNat n.toNat) (s.getV x).toNat (s.getV y).toNat px py ∧
        s.disp.pixel px py = true := by
  classical
  rw [drawn, Drawing.collision_rows _ _ _ _ (by rw [State.readBytes_length]; omega), Bool.false_or, decide_eq_true_eq]

/-- A covered pixel that was set is one that goes from set to unset (R232). -/
theorem drawn_collision_iff (s : State) (x y n : Nibble) :
    (drawn s x y n).2 = true ↔
      ∃ px py, s.disp.pixel px py = true ∧ (drawn s x y n).1.pixel px py = false := by
  rw [drawn_collision_iff_covers]
  refine exists_congr fun px => exists_congr fun py => ?_
  rw [← pixel_drawn_ne_iff, and_comm]
  exact and_congr_right fun hset => by rw [hset, ne_eq, Bool.not_eq_true]

/-- With no row nothing is drawn and nothing collides (R236). -/
theorem drawn_zero (s : State) (x y : Nibble) : drawn s x y 0 = (s.disp, false) := rfl

/-! ## The frames of a framebuffer write -/

/-- The fetch advance and a write of the framebuffer touch PC and pixels. -/
theorem State.advance_setDisp_frame (s : State) (d : Display) :
    SameExcept (fun p => p = .pc ∨ ∃ x y, p = .pixel x y) s (s.advance.setDisp d) := by
  intro p hp
  cases p with
  | pc => exact absurd (.inl rfl) hp
  | pixel x y => exact absurd (.inr ⟨x, y, rfl⟩) hp
  | _ => rfl

/-- DRW touches PC, VF and pixels. -/
theorem drw_frame (s : State) (d : Display) (flag : Byte) :
    SameExcept (fun p => p = .pc ∨ p = .reg 0xF ∨ ∃ x y, p = .pixel x y) s ((s.advance.setDisp d).setV 0xF flag) :=
  ((s.advance_setDisp_frame d).mono fun _ => Or.imp_right .inr).trans
    ((State.setV_frame _ 0xF flag).mono (by simp))

/-! ## Replacing the framebuffer -/

@[simp] theorem State.load_disp (s : State) (rom : List Byte) : (s.load rom).1.disp = s.disp := by
  obtain ⟨-, h⟩ | ⟨-, h⟩ := s.load_cases rom <;> simp [h]

theorem State.writeBytes_setDisp (s : State) (d : Display) (base : Nat) (bs : List Byte) :
    (s.setDisp d).writeBytes base bs = (s.writeBytes base bs).setDisp d :=
  State.writeBytes_comm (f := (·.setDisp d)) (fun _ _ _ => rfl) s base bs

/-- An instruction other than CLS and DRW does the same whatever the framebuffer holds (R237). -/
theorem exec_setDisp {i : Instr} {s t : State} (d : Display) (hcls : i ≠ .cls) (hdrw : ∀ x y n, i ≠ .drw x y n)
    (h : exec i s = .next t) : exec i (s.setDisp d) = .next (t.setDisp d) := by
  cases i with
  | cls => exact absurd rfl hcls
  | drw x y n => exact absurd rfl (hdrw x y n)
  | call nnn =>
    obtain ⟨hsp, he⟩ | ⟨hsp, he⟩ := exec_call_cases nnn s <;> cases he.symm.trans h
    · exact exec_call_ok nnn (s.setDisp d) hsp
    · exact exec_call_full nnn (s.setDisp d) hsp
  | ret =>
    obtain ⟨hsp, he⟩ | ⟨hsp, he⟩ := exec_ret_cases s <;> cases he.symm.trans h
    · exact exec_ret_ok (s.setDisp d) hsp
    · exact exec_ret_empty (s.setDisp d) hsp
  | ldB x =>
    obtain ⟨hi, he⟩ | ⟨hi, he⟩ := exec_ldB_cases x s <;> cases he.symm.trans h
    · rw [exec_ldB_ok x (s := s.setDisp d) hi]
      exact congrArg Host.Outcome.next (s.advance.writeBytes_setDisp d _ _)
    · exact exec_ldB_error x (s := s.setDisp d) hi
  | ldStore x =>
    obtain ⟨hi, he⟩ | ⟨hi, he⟩ := exec_ldStore_cases x s <;> cases he.symm.trans h
    · rw [exec_ldStore_ok x (s := s.setDisp d) hi]
      exact congrArg (fun u : State => Host.Outcome.next (u.setI (indexAfter s x)))
        (s.advance.writeBytes_setDisp d _ _)
    · exact exec_ldStore_error x (s := s.setDisp d) hi
  | ldLoad x =>
    obtain ⟨hi, he⟩ | ⟨hi, he⟩ := exec_ldLoad_cases x s <;> cases he.symm.trans h
    · exact exec_ldLoad_ok x (s := s.setDisp d) hi
    · exact exec_ldLoad_error x (s := s.setDisp d) hi
  | ldVxK x =>
    obtain ⟨k, hk, he⟩ | ⟨hk, he⟩ := exec_ldVxK_cases x s <;> cases he.symm.trans h
    · exact exec_ldVxK_some x (s := s.setDisp d) hk
    · exact exec_ldVxK_none x (s := s.setDisp d) hk
  | _ =>
    -- Every other instruction has one outcome, which `exec` computes to.
    cases h; rfl

/-- An instruction other than CLS and DRW leaves the framebuffer: run on the framebuffer replaced by itself, which is
the same state, it answers the same state with that framebuffer (R237). -/
theorem exec_keeps_disp {i : Instr} {s t : State} (hcls : i ≠ .cls) (hdrw : ∀ x y n, i ≠ .drw x y n)
    (h : exec i s = .next t) : t.disp = s.disp := by
  have hself : t = t.setDisp s.disp := Host.Outcome.next.inj (h.symm.trans (exec_setDisp s.disp hcls hdrw h))
  rw [hself, State.setDisp_disp]

end Sys2Proof.Machine
end

section
/-! The statements about the display, settled. -/

namespace Sys2Proof.Machine

/-- Settles O16, from an instruction's run on a replaced framebuffer. -/
theorem onlyClsAndDrwTouchTheDisplay : Obligations.OnlyClsAndDrwTouchTheDisplay := by
  unfold Obligations.OnlyClsAndDrwTouchTheDisplay
  refine ⟨?_, ?_, ?_⟩
  · intro i s t d hcls hdrw h
    exact ⟨exec_keeps_disp hcls hdrw h, exec_setDisp d hcls hdrw h⟩
  · intro s d
    rw [exec_cls, exec_cls]; rfl
  · intro op s t r hstep hreset h
    cases op with
    | step => exact absurd rfl hstep
    | reset c => exact absurd rfl (hreset c)
    | setKey k b => obtain ⟨-, rfl, -⟩ := perform_setKey_iff.mp h; rfl
    | load rom => cases h; exact s.load_disp rom
    | tick | readDisplay | readSound | readStatus => cases h; rfl

/-- Settles O45: the pixels and the collision of `drawn`, the rows checked before any is drawn. -/
theorem drawXorsTheWrappedSprite : Obligations.DrawXorsTheWrappedSprite := by
  unfold Obligations.DrawXorsTheWrappedSprite
  intro s x y n
  refine ⟨decode_encode (.drw x y n), fun hin => ?_, fun hn hout => exec_drw_error x y n hn hout⟩
  have hflag : ((s.advance.setDisp (drawn s x y n).1).setV 0xF (collisionFlag (drawn s x y n).2)).getV 0xF =
      collisionFlag (drawn s x y n).2 := by simp
  refine ⟨_, exec_drw_ok x y n hin, fun px py => ?_, fun hunset => ?_, fun hkept => ?_, fun hn => ?_, rfl,
    drw_frame s _ _⟩
  · exact (pixel_drawn_ne_iff s x y n px py).trans (spriteCovers_readBytes ..)
  · rw [hflag, (drawn_collision_iff s x y n).mpr hunset]; rfl
  · have hnone : (drawn s x y n).2 = false := by
      rw [← Bool.not_eq_true, drawn_collision_iff]
      rintro ⟨px, py, hset, hunset⟩
      exact Bool.false_ne_true (hunset.symm.trans (hkept px py hset))
    rw [hflag, hnone]; rfl
  · subst hn
    rw [hflag, drawn_zero]
    exact ⟨rfl, rfl⟩

/-- Settles O44: CLS is one write of the framebuffer. -/
theorem clsClearsEveryPixel : Obligations.ClsClearsEveryPixel := by
  unfold Obligations.ClsClearsEveryPixel
  intro s
  exact ⟨decode_encode .cls, _, exec_cls s, Display.pixel_clear, rfl, s.advance_setDisp_frame _⟩

end Sys2Proof.Machine
end

section
/-! SUPPORT. What the keypad instructions do, in the words of R270 to R280: the key SKP and SKNP test, what a stored key
and a wait write, and their frames. -/

namespace Sys2Proof.Machine

/-- The key number of SKP and SKNP is VX modulo 16 (R272). -/
theorem lowNibble_eq_iff (s : State) (x k : Nibble) : lowNibble s x = k ↔ k.toNat = (s.getV x).toNat % 16 := by
  rw [← BitVec.toNat_inj, toNat_lowNibble, eq_comm]

/-- SKP is a skip on its key being pressed (R270). -/
theorem exec_skp_decide (x : Nibble) (s : State) :
    exec (.skp x) s = .next (s.advance.skip (decide (s.getKey (lowNibble s x) = true))) := by
  rw [exec_skp, Bool.decide_eq_true]

/-- SKNP is a skip on its key not being pressed (R271). -/
theorem exec_sknp_decide (x : Nibble) (s : State) :
    exec (.sknp x) s = .next (s.advance.skip (decide (s.getKey (lowNibble s x) = false))) := by
  rw [exec_sknp, Bool.decide_eq_false]

/-- Writing AwaitingKey touches no other part. -/
theorem State.setAwaitingKey_frame (s : State) (b : Bool) :
    SameExcept (· ∈ [.awaitingKey]) s (s.setAwaitingKey b) := by
  intro p hp
  cases p with
  | awaitingKey => exact absurd (List.mem_singleton_self _) hp
  | _ => rfl

/-- The fetch advance, a register write and a write of AwaitingKey touch PC, that register and AwaitingKey. -/
theorem State.advance_setV_setAwaitingKey_frame (s : State) (x : Nibble) (v : Byte) (b : Bool) :
    SameExcept (· ∈ [.pc, .reg x, .awaitingKey]) s ((s.advance.setV x v).setAwaitingKey b) :=
  ((s.advance_setV_frame x v).mono (by simp +contextual)).trans
    (((s.advance.setV x v).setAwaitingKey_frame b).mono (by simp))

/-- A register that stores a key number holds it exactly, a nibble fitting in a byte (R280). -/
theorem State.toNat_getV_setV_key (s : State) (x k : Nibble) : ((s.setV x (k.setWidth 8)).getV x).toNat = k.toNat := by
  rw [State.getV_setV, if_pos rfl, BitVec.toNat_setWidth_of_le (by decide)]

end Sys2Proof.Machine
end

section
/-! The statements about keypad input, settled. -/

namespace Sys2Proof.Machine

/-- Settles O49: the search for the lowest pressed key finds the key the statement names, or none. -/
theorem keyWaitStoresTheLowestKeyOrHolds : Obligations.KeyWaitStoresTheLowestKeyOrHolds := by
  unfold Obligations.KeyWaitStoresTheLowestKeyOrHolds
  intro s x
  refine ⟨decode_encode (.ldVxK x), fun k hpressed hlowest => ?_, fun hnone => ?_⟩
  · have hfound : s.lowestPressedKey = some k := (s.lowestPressedKey_some k).mpr ⟨hpressed, hlowest⟩
    exact ⟨_, exec_ldVxK_some x hfound, s.advance.toNat_getV_setV_key x k, rfl, rfl,
      s.advance_setV_setAwaitingKey_frame x _ false⟩
  · exact exec_ldVxK_none x (s.lowestPressedKey_none.mpr hnone)

/-- Settles O48: each is a skip on its own condition of the key that VX's low nibble names. -/
theorem keySkipsTestTheLowNibble : Obligations.KeySkipsTestTheLowNibble := by
  unfold Obligations.KeySkipsTestTheLowNibble
  intro s x k hk
  obtain rfl : lowNibble s x = k := (lowNibble_eq_iff s x k).mpr hk
  exact ⟨⟨decode_encode (.skp x), skip_spec (exec_skp_decide x s)⟩,
    ⟨decode_encode (.sknp x), skip_spec (exec_sknp_decide x s)⟩⟩

end Sys2Proof.Machine
end

section
/-! SUPPORT. A write of DT or of ST after the fetch advance, and its frame. -/

namespace Sys2Proof.Machine

/-- Writing DT touches no other part. -/
theorem State.setDt_frame (s : State) (b : Byte) : SameExcept (· ∈ [.dt]) s (s.setDt b) := by
  intro p hp
  cases p with
  | dt => exact absurd (List.mem_singleton_self _) hp
  | _ => rfl

/-- Writing ST touches no other part. -/
theorem State.setSt_frame (s : State) (b : Byte) : SameExcept (· ∈ [.st]) s (s.setSt b) := by
  intro p hp
  cases p with
  | st => exact absurd (List.mem_singleton_self _) hp
  | _ => rfl

/-- The fetch advance and a write of DT touch PC and DT. -/
theorem State.advance_setDt_frame (s : State) (b : Byte) : SameExcept (· ∈ [.pc, .dt]) s (s.advance.setDt b) :=
  ((s.setPc_frame _).mono (by simp)).trans ((s.advance.setDt_frame b).mono (by simp))

/-- The fetch advance and a write of ST touch PC and ST. -/
theorem State.advance_setSt_frame (s : State) (b : Byte) : SameExcept (· ∈ [.pc, .st]) s (s.advance.setSt b) :=
  ((s.setPc_frame _).mono (by simp)).trans ((s.advance.setSt_frame b).mono (by simp))

end Sys2Proof.Machine
end

section
/-! The statement about the moves between a register and the timers, settled. -/

namespace Sys2Proof.Machine

/-- Settles O52: each move is one write, of a register, of DT or of ST, of the byte its source held. -/
theorem timerMoves : Obligations.TimerMoves := by
  unfold Obligations.TimerMoves
  intro s x
  refine ⟨⟨decode_encode (.ldVxDt x), setV_spec (exec_ldVxDt x s)⟩, ⟨decode_encode (.ldDt x), ?_⟩,
    ⟨decode_encode (.ldSt x), ?_⟩⟩
  · exact ⟨_, exec_ldDt x s, State.setDt_dt _ _, rfl, s.advance_setDt_frame _⟩
  · exact ⟨_, exec_ldSt x s, State.setSt_st _ _, rfl, s.advance_setSt_frame _⟩

end Sys2Proof.Machine
end

section
/-! SUPPORT. Where an error goes: an instruction or a step either records it on the state it began in or leaves Fault,
and the host's other operations do the same whatever Fault holds. Then the frames of TICK and SET_KEY. -/

namespace Sys2Proof.Machine

/-! ## Raising an error -/

/-- An instruction leaves Fault, or raises an error on the state it began in (R305). -/
theorem exec_fault_cases {i : Instr} {s t : State} (h : exec i s = .next t) :
    t.fault = s.fault ∨ ∃ e, t = s.raise e := by
  cases i with
  | call nnn =>
    obtain ⟨_, he⟩ | ⟨_, he⟩ := exec_call_cases nnn s <;> cases he.symm.trans h
    · exact .inl rfl
    · exact .inr ⟨_, rfl⟩
  | ret =>
    obtain ⟨_, he⟩ | ⟨_, he⟩ := exec_ret_cases s <;> cases he.symm.trans h
    · exact .inl rfl
    · exact .inr ⟨_, rfl⟩
  | ldB x =>
    obtain ⟨_, he⟩ | ⟨_, he⟩ := exec_ldB_cases x s <;> cases he.symm.trans h
    · exact .inl (State.writeBytes_fault _ _ _)
    · exact .inr ⟨_, rfl⟩
  | ldStore x =>
    obtain ⟨_, he⟩ | ⟨_, he⟩ := exec_ldStore_cases x s <;> cases he.symm.trans h
    · exact .inl (State.writeBytes_fault _ _ _)
    · exact .inr ⟨_, rfl⟩
  | ldLoad x =>
    obtain ⟨_, he⟩ | ⟨_, he⟩ := exec_ldLoad_cases x s <;> cases he.symm.trans h
    · exact .inl rfl
    · exact .inr ⟨_, rfl⟩
  | drw x y n =>
    obtain ⟨_, he⟩ | ⟨_, he⟩ := exec_drw_cases x y n s <;> cases he.symm.trans h
    · exact .inl rfl
    · exact .inr ⟨_, rfl⟩
  | ldVxK x =>
    obtain ⟨_, _, he⟩ | ⟨_, he⟩ := exec_ldVxK_cases x s <;> cases he.symm.trans h
    all_goals exact .inl rfl
  | _ =>
    -- Every other instruction has one outcome, which `exec` computes to.
    cases h; exact .inl rfl

theorem State.raise_of_fault {s : State} {e : VmError} (h : s.fault = some e) : s.raise e = s := by
  rw [State.raise, ← h]

/-- A step that leaves Fault = e is the raising of e on the state it began in, a recorded e included (R305, R111). -/
theorem step_eq_raise {s t : State} {e : VmError} (h : step s = .next t) (he : t.fault = some e) :
    t = s.raise e := by
  have raised {e' : VmError} (ht : t = s.raise e') : t = s.raise e := by
    subst ht; cases he; rfl
  obtain ⟨_, _, rfl⟩ | ⟨_, _, ht⟩ | ⟨_, _, _, _, _, _, ht⟩ | ⟨_, i, hnone, _, _, _, hexec⟩ := step_cases h
  · exact (State.raise_of_fault he).symm
  · exact raised ht
  · exact raised ht
  · obtain hkept | ⟨_, ht⟩ := exec_fault_cases hexec
    · rw [hkept, hnone] at he; cases he
    · exact raised ht

/-- A STEP returns e exactly when its step leaves Fault = e. -/
theorem perform_step_error_iff {s t : State} {e : VmError} :
    perform .step s = .next (t, .result (some e)) ↔ step s = .next t ∧ t.fault = some e := by
  rw [perform_step_iff, Reply.result.injEq, eq_comm (a := some e)]

/-! ## Replacing Fault -/

/-- Fault replaced. -/
def State.withFault (s : State) (f : Option VmError) : State := { s with fault := f }

theorem State.writeBytes_withFault (s : State) (f : Option VmError) (base : Nat) (bs : List Byte) :
    (s.withFault f).writeBytes base bs = (s.writeBytes base bs).withFault f :=
  State.writeBytes_comm (f := (·.withFault f)) (fun _ _ _ => rfl) s base bs

@[simp] theorem State.load_fault (s : State) (rom : List Byte) : (s.load rom).1.fault = s.fault := by
  obtain ⟨-, h⟩ | ⟨-, h⟩ := s.load_cases rom <;> simp [h]

/-- LOAD copies and answers the same whatever Fault holds (R306). -/
theorem perform_load_withFault (s : State) (rom : List Byte) (f : Option VmError) :
    perform (.load rom) (s.withFault f) = .next ((s.load rom).1.withFault f, .result (s.load rom).2) := by
  obtain ⟨hlarge, h⟩ | ⟨hfits, h⟩ := s.load_cases rom
  · rw [h, perform_load_tooLarge _ hlarge]
  · rw [h, perform_load_ok _ hfits, State.writeBytes_withFault]

/-! ## TICK and SET_KEY -/

/-- A timer's countdown is subtraction of one, floored at zero (R320). -/
theorem toNat_countDown (b : Byte) : (countDown b).toNat = b.toNat - 1 := by
  unfold countDown
  split <;> bv_omega

/-- TICK touches the two timers. -/
theorem State.tick_frame (s : State) : SameExcept (· ∈ [.dt, .st]) s s.tick := by
  intro p hp
  cases p with
  | dt | st => simp at hp
  | _ => rfl

/-- Writing a key touches no other part. -/
theorem State.setKey_frame (s : State) (k : Nibble) (b : Bool) : SameExcept (· ∈ [.key k]) s (s.setKey k b) := by
  intro p hp
  cases p with
  | key j =>
    have hj : j ≠ k := fun e => hp (by simp [e])
    simp [Part.same, hj]
  | _ => rfl

theorem perform_setKey_outOfRange (s : State) {k : Nat} (b : Bool) (h : 16 ≤ k) :
    perform (.setKey k b) s = .refused (.keyNumberOutOfRange k) := if_neg (Nat.not_lt_of_ge h)

end Sys2Proof.Machine
end

section
/-! The statements about errors, the recorded fault, TICK and SET_KEY, settled. -/

namespace Sys2Proof.Machine

/-- Settles O8: a STEP's error is raised on the state before it, and a LOAD's comes with that state. -/
theorem errorsCommitNothing : Obligations.ErrorsCommitNothing := by
  unfold Obligations.ErrorsCommitNothing
  refine ⟨?_, ?_⟩
  · intro s t e h
    obtain ⟨hstep, hfault⟩ := perform_step_error_iff.mp h
    exact step_eq_raise hstep hfault
  · intro s t rom e h
    obtain hlarge | hfits := Nat.lt_or_ge romMax rom.length
    · rw [perform_load_tooLarge s hlarge] at h; cases h; rfl
    · rw [perform_load_ok s hfits] at h; cases h

/-- Settles O9: STEP answers the Fault it leaves, the other operations run alike on a replaced Fault, RESET clears it. -/
theorem faultIsStickyUntilReset : Obligations.FaultIsStickyUntilReset := by
  unfold Obligations.FaultIsStickyUntilReset
  refine ⟨?_, ?_, ?_, ?_⟩
  · intro s t e h
    exact (perform_step_error_iff.mp h).2
  · intro s e hfault
    have hstep : step s = .next s := step_faulted hfault
    exact ⟨hstep, perform_step_error_iff.mpr ⟨hstep, hfault⟩⟩
  · intro op s t r f h hstep hstatus hreset
    cases op with
    | step => exact absurd rfl hstep
    | readStatus => exact absurd rfl hstatus
    | reset c => exact absurd rfl (hreset c)
    | load rom => cases h; exact ⟨s.load_fault rom, perform_load_withFault s rom f⟩
    | setKey k b =>
      obtain ⟨hk, rfl, rfl⟩ := perform_setKey_iff.mp h
      exact ⟨rfl, perform_setKey_iff.mpr ⟨hk, rfl, rfl⟩⟩
    | tick | readDisplay | readSound => cases h; exact ⟨rfl, rfl⟩
  · intro s t c r h
    obtain ⟨-, rfl, -⟩ := perform_reset_iff.mp h; rfl

/-- Settles O53: TICK counts both timers down and touches nothing else. -/
theorem tickCountsDownToZero : Obligations.TickCountsDownToZero := by
  unfold Obligations.TickCountsDownToZero
  intro s
  exact ⟨s.tick, rfl, toNat_countDown s.dt, toNat_countDown s.st, s.tick_frame⟩

/-- Settles O56: SET_KEY is one key write, and the range check refuses the numbers above 15. -/
theorem setKeyWritesOneKey : Obligations.SetKeyWritesOneKey := by
  unfold Obligations.SetKeyWritesOneKey
  refine ⟨?_, fun s k b => perform_setKey_outOfRange s b⟩
  intro s k b
  exact ⟨s.setKey k b, perform_setKey s k b, by simp, s.setKey_frame k b⟩

end Sys2Proof.Machine
end

section
/-! SUPPORT. What a step fetches from the RAM that RESET leaves. -/

namespace Sys2Proof.Machine

/-- The font of R41 ends below the program area, so from there up RAM is zero after RESET (R47). -/
theorem resetByte_program {c : Config} {a : Nat} (hc : c.wellFormed = true) (ha : progStart ≤ a) :
    resetByte c a = 0 := by
  have hbase : c.fontBase.toNat ≤ 0x1B0 := of_decide_eq_true hc
  have hstart : 0x200 ≤ a := ha
  exact resetByte_outside_font (.inr (by omega))

/-- The first fetch after RESET reads the bytes 00 00 at 0x200. -/
theorem State.fetch_resetWith {c : Config} (hc : c.wellFormed = true) : (State.resetWith c).fetch = .ok 0x0000 := by
  have hhi : (State.resetWith c).readByte 0x200 = 0 := resetByte_program hc (by decide)
  have hlo : (State.resetWith c).readByte 0x201 = 0 := resetByte_program hc (by decide)
  calc (State.resetWith c).fetch
    _ = .ok (wordOfBytes ((State.resetWith c).readByte 0x200) ((State.resetWith c).readByte 0x201)) := rfl
    _ = .ok 0x0000 := by rw [hhi, hlo]; rfl

end Sys2Proof.Machine
end

section
/-! The statement about the first step from reset, settled. -/

namespace Sys2Proof.Machine

/-- Settles O59: the first fetch reads the word 0x0000, which the decoder rejects. -/
theorem stepBeforeLoadIsUnknownOpcode : Obligations.StepBeforeLoadIsUnknownOpcode := by
  unfold Obligations.StepBeforeLoadIsUnknownOpcode
  intro c hc
  have hdecode : decode 0x0000 = .error (.unknown 0x0000) := by decide
  exact step_unknown rfl (State.fetch_resetWith hc) hdecode

end Sys2Proof.Machine
end

section
/-! SUPPORT. Everything an instruction can do, said once: which parts of the state each may write and which error each
may raise. -/

namespace Sys2Proof.Machine

/-! ## Which parts an instruction writes -/

/-- The parts an instruction may write once its word is fetched, PC + 2 being the fetch's own write (R113). -/
def writes : Instr → Part → Prop
  | .cls => fun p => ∃ x y, p = .pixel x y
  | .drw _ _ _ => fun p => p = .reg 0xF ∨ ∃ x y, p = .pixel x y
  | .jp _ | .jpV0 _ | .seImm _ _ | .sneImm _ _ | .seReg _ _ | .sneReg _ _ | .skp _ | .sknp _ => (· ∈ [.pc])
  | .call _ => fun p => p = .pc ∨ p = .sp ∨ ∃ k, p = .stack k
  | .ret => (· ∈ [.pc, .sp])
  | .ldImm x _ | .addImm x _ | .ldReg x _ | .orReg x _ | .andReg x _ | .xorReg x _ | .ldVxDt x => (· ∈ [.reg x])
  | .addReg x _ | .sub x _ | .shr x _ | .subn x _ | .shl x _ => (· ∈ [.reg x, .reg 0xF])
  | .rnd x _ => (· ∈ [.reg x, .draws])
  | .ldVxK x => (· ∈ [.pc, .reg x, .awaitingKey])
  | .ldI _ | .addI _ | .ldF _ => (· ∈ [.index])
  | .ldDt _ => (· ∈ [.dt])
  | .ldSt _ => (· ∈ [.st])
  | .ldB _ => fun p => ∃ a, p = .byte a
  | .ldStore _ => fun p => p = .index ∨ ∃ a, p = .byte a
  | .ldLoad x => fun p => p = .index ∨ ∃ k : Nibble, k.toNat ≤ x.toNat ∧ p = .reg k

/-- The error an instruction raises, with its condition on the state (R132, R133, R302 to R304). -/
def Raises (s : State) (e : VmError) : Instr → Prop
  | .call _ => s.sp = 16 ∧ e = .stackOverflow
  | .ret => s.sp = 0 ∧ e = .stackUnderflow
  | .drw _ _ _ | .ldB _ | .ldStore _ | .ldLoad _ => e = .memoryAccessOutOfBounds (max s.i.toNat 0x1000)
  | _ => False

/-! ## The frames it is assembled from -/

theorem State.setDisp_frame (s : State) (d : Display) :
    SameExcept (fun p => ∃ x y, p = .pixel x y) s (s.setDisp d) := by
  intro p hp
  cases p with
  | pixel x y => exact absurd ⟨x, y, rfl⟩ hp
  | _ => rfl

theorem State.countDraw_frame (s : State) : SameExcept (· ∈ [.draws]) s s.countDraw := by
  intro p hp
  cases p with
  | draws => exact absurd (List.mem_singleton_self _) hp
  | _ => rfl

theorem State.setVThenFlag_frame (s : State) (x : Nibble) (r f : Byte) :
    SameExcept (· ∈ [.reg x, .reg 0xF]) s (s.setVThenFlag x r f) :=
  ((s.setV_frame x r).mono (by simp +contextual)).trans (((s.setV x r).setV_frame 0xF f).mono (by simp))

/-- Taking back the fetch advance touches PC. -/
theorem State.advance_undo_frame (s : State) : SameExcept (· ∈ [.pc]) s.advance s := s.advance.setPc_frame s.pc

/-- A write of registers and of I touches the registers up to VX and I. -/
theorem State.loaded_frame (s : State) (x : Nibble) (w : Word) :
    SameExcept (fun p => p = .index ∨ ∃ k : Nibble, k.toNat ≤ x.toNat ∧ p = .reg k) s
      { s with v := loadedRegs s x, i := w } := by
  intro p hp
  by_cases hpc : p = .pc
  · subst hpc; rfl
  · exact ldLoad_frame s x s.pc w p (not_or.mpr ⟨hpc, hp⟩)

/-! ## All an instruction can do -/

/-- An instruction completes, touching after the fetch advance only what it may write, or raises its own error on the
state it began in (R113, R305). -/
theorem exec_completes_or_raises {i : Instr} {s t : State} (h : exec i s = .next t) :
    SameExcept (writes i) s.advance t ∨ ∃ e, Raises s e i ∧ t = s.raise e := by
  cases i with
  | cls => cases h; exact .inl (s.advance.setDisp_frame _)
  | jp | jpV0 | seImm | sneImm | seReg | sneReg | skp | sknp => cases h; exact .inl (s.advance.setPc_frame _)
  | ldImm | addImm | ldReg | orReg | andReg | xorReg | ldVxDt => cases h; exact .inl (s.advance.setV_frame _ _)
  | addReg | sub | shr | subn | shl => cases h; exact .inl (s.advance.setVThenFlag_frame _ _ _)
  | ldI | addI | ldF => cases h; exact .inl (s.advance.setI_frame _)
  | ldDt => cases h; exact .inl (s.advance.setDt_frame _)
  | ldSt => cases h; exact .inl (s.advance.setSt_frame _)
  | rnd x nn =>
    cases h
    exact .inl ((s.advance.countDraw_frame.mono (by simp [writes])).trans
      ((s.advance.countDraw.setV_frame x _).mono (by simp [writes])))
  | ldVxK x =>
    obtain ⟨k, _, he⟩ | ⟨_, he⟩ := exec_ldVxK_cases x s <;> cases he.symm.trans h
    · exact .inl (((s.advance.setV_frame x _).mono (by simp [writes])).trans
        ((State.setAwaitingKey_frame _ false).mono (by simp [writes])))
    · exact .inl ((s.advance_undo_frame.mono (by simp [writes])).trans
        ((s.setAwaitingKey_frame true).mono (by simp [writes])))
  | call nnn =>
    obtain ⟨hsp, he⟩ | ⟨hsp, he⟩ := exec_call_cases nnn s <;> cases he.symm.trans h
    · exact .inl ((s.advance_undo_frame.mono (by simp [writes])).trans
        ((call_frame s _ _ hsp).mono (by simp +contextual [writes])))
    · exact .inr ⟨_, ⟨hsp, rfl⟩, rfl⟩
  | ret =>
    obtain ⟨_, he⟩ | ⟨hsp, he⟩ := exec_ret_cases s <;> cases he.symm.trans h
    · exact .inl ((s.advance_undo_frame.mono (by simp [writes])).trans (ret_frame s _ _))
    · exact .inr ⟨_, ⟨hsp, rfl⟩, rfl⟩
  | ldB x =>
    obtain ⟨_, he⟩ | ⟨_, he⟩ := exec_ldB_cases x s <;> cases he.symm.trans h
    · exact .inl ((s.advance.writeBytes_frame _ _).mono fun _ ⟨_, _, hbyte⟩ => ⟨_, hbyte⟩)
    · exact .inr ⟨_, rfl, rfl⟩
  | ldStore x =>
    obtain ⟨_, he⟩ | ⟨_, he⟩ := exec_ldStore_cases x s <;> cases he.symm.trans h
    · exact .inl (((s.advance.writeBytes_frame _ _).mono fun _ ⟨_, _, hbyte⟩ => .inr ⟨_, hbyte⟩).trans
        ((State.setI_frame _ _).mono (by simp [writes])))
    · exact .inr ⟨_, rfl, rfl⟩
  | ldLoad x =>
    obtain ⟨_, he⟩ | ⟨_, he⟩ := exec_ldLoad_cases x s <;> cases he.symm.trans h
    · exact .inl (s.advance.loaded_frame x _)
    · exact .inr ⟨_, rfl, rfl⟩
  | drw x y n =>
    obtain ⟨_, he⟩ | ⟨_, he⟩ := exec_drw_cases x y n s <;> cases he.symm.trans h
    · exact .inl (((s.advance.setDisp_frame _).mono fun _ => .inr).trans
        ((State.setV_frame _ 0xF _).mono (by simp [writes])))
    · exact .inr ⟨_, rfl, rfl⟩

/-- What an instruction may not write it leaves alone, PC and Fault aside: PC is the fetch's to advance and Fault an
error's to record. -/
theorem exec_keeps {i : Instr} {s t : State} (p : Part) (h : exec i s = .next t) (hp : ¬ writes i p)
    (hpc : p ≠ .pc) (hfault : p ≠ .fault) : p.same s t := by
  obtain hframe | ⟨e, -, rfl⟩ := exec_completes_or_raises h
  · have hsame := hframe p hp
    cases p with
    | pc => exact absurd rfl hpc
    | _ => exact hsame
  · cases p with
    | fault => exact absurd rfl hfault
    | _ => rfl

end Sys2Proof.Machine
end

section
/-! SUPPORT. The other direction of the encoding: a word is its fields put together again, so a decoded instruction's
word is the word it was decoded from; and which words each family of the decoder rejects. -/

namespace Sys2Proof

/-! ## A word is its fields -/

theorem formatA_fields (op : Word) : formatA (fieldOp op) (fieldNNN op) = op := by
  apply BitVec.eq_of_toNat_eq
  rw [toNat_formatA, toNat_fieldOp, toNat_fieldNNN]; omega

theorem formatXB_fields (op : Word) : formatXB (fieldOp op) (fieldX op) (fieldNN op) = op := by
  apply BitVec.eq_of_toNat_eq
  rw [toNat_formatXB, toNat_fieldOp, toNat_fieldX, toNat_fieldNN]; omega

theorem formatXY_fields (op : Word) : formatXY (fieldOp op) (fieldX op) (fieldY op) (fieldN op) = op := by
  apply BitVec.eq_of_toNat_eq
  rw [toNat_formatXY, toNat_fieldOp, toNat_fieldX, toNat_fieldY, toNat_fieldN]; omega

theorem formatX_fields (op : Word) : formatX (fieldOp op) (fieldX op) (fieldNN op) = op := formatXB_fields op

/-! ## The decoder, family by family -/

theorem encode_of_decodeFamily0 {op : Word} {i : Instr} (h : decodeFamily0 op = .ok i) : encode i = op := by
  unfold decodeFamily0 at h
  split at h
  · next hop => cases h; exact hop.symm
  · split at h
    · next hop => cases h; exact hop.symm
    · cases h

theorem encode_of_decodeFamily8 {op : Word} {i : Instr} (hop : fieldOp op = 0x8) (h : decodeFamily8 op = .ok i) :
    encode i = op := by
  have key {n : Nibble} (hn : (fieldN op).toNat = n.toNat) : formatXY 0x8 (fieldX op) (fieldY op) n = op := by
    rw [← hop, ← BitVec.eq_of_toNat_eq hn, formatXY_fields]
  unfold decodeFamily8 at h
  split at h <;> cases h <;> exact key ‹_›

theorem encode_of_decodeFamilyE {op : Word} {i : Instr} (hop : fieldOp op = 0xE) (h : decodeFamilyE op = .ok i) :
    encode i = op := by
  have key {b : Byte} (hb : (fieldNN op).toNat = b.toNat) : formatX 0xE (fieldX op) b = op := by
    rw [← hop, ← BitVec.eq_of_toNat_eq hb, formatX_fields]
  unfold decodeFamilyE at h
  split at h <;> cases h <;> exact key ‹_›

theorem encode_of_decodeFamilyF {op : Word} {i : Instr} (hop : fieldOp op = 0xF) (h : decodeFamilyF op = .ok i) :
    encode i = op := by
  have key {b : Byte} (hb : (fieldNN op).toNat = b.toNat) : formatX 0xF (fieldX op) b = op := by
    rw [← hop, ← BitVec.eq_of_toNat_eq hb, formatX_fields]
  unfold decodeFamilyF at h
  split at h <;> cases h <;> exact key ‹_›

/-- A word that decodes to an instruction is that instruction's word, no bit being ignored (R95, R96). -/
theorem encode_of_decode {op : Word} {i : Instr} (h : decode op = .ok i) : encode i = op := by
  have family {o : Nibble} (ho : (fieldOp op).toNat = o.toNat) : fieldOp op = o := BitVec.eq_of_toNat_eq ho
  have keyA {o : Nibble} (ho : (fieldOp op).toNat = o.toNat) : formatA o (fieldNNN op) = op := by
    rw [← family ho, formatA_fields]
  have keyXB {o : Nibble} (ho : (fieldOp op).toNat = o.toNat) : formatXB o (fieldX op) (fieldNN op) = op := by
    rw [← family ho, formatXB_fields]
  have keyXY {o n : Nibble} (ho : (fieldOp op).toNat = o.toNat) (hn : fieldN op = n) :
      formatXY o (fieldX op) (fieldY op) n = op := by
    rw [← family ho, ← hn, formatXY_fields]
  -- The decoder's match has one case per family, in order: `h_1` is family 0.
  unfold decode at h
  split at h
  case h_1 => exact encode_of_decodeFamily0 h
  case h_9 ho => exact encode_of_decodeFamily8 (family ho) h
  case h_15 ho => exact encode_of_decodeFamilyE (family ho) h
  case h_16 =>
    have hlt := (fieldOp op).isLt
    have ho : (fieldOp op).toNat = 15 := by
      simp only [imp_false] at *
      omega
    exact encode_of_decodeFamilyF (family ho) h
  case h_6 ho | h_10 ho =>
    split at h <;> cases h
    exact keyXY ho ‹_›
  case h_14 ho => cases h; exact keyXY ho rfl
  case h_2 ho | h_3 ho | h_11 ho | h_12 ho => cases h; exact keyA ho
  case h_4 ho | h_5 ho | h_7 ho | h_8 ho | h_13 ho => cases h; exact keyXB ho

/-! ## The rejected words -/

/-- The families 5 and 9 reject the words whose N is not 0 (D3). -/
theorem decodeN0_error_iff {P : Prop} [Decidable P] {i : Instr} {op : Word} {e : DecodeError} :
    (if P then .ok i else .error (.unknown op)) = Except.error e ↔ ¬ P ∧ e = .unknown op := by
  by_cases hP : P <;> simp [hP, eq_comm (a := e)]

theorem decodeFamily0_error_iff {op : Word} {e : DecodeError} :
    decodeFamily0 op = .error e ↔ (op ≠ 0x00E0 ∧ op ≠ 0x00EE) ∧ e = .unknown op := by
  unfold decodeFamily0
  split
  · simp_all
  · split <;> simp_all [eq_comm (a := e)]

theorem decodeFamily8_error_iff {op : Word} {e : DecodeError} :
    decodeFamily8 op = .error e ↔
      op.toNat % 0x10 ∈ [0x8, 0x9, 0xA, 0xB, 0xC, 0xD, 0xF] ∧ e = .unknown op := by
  unfold decodeFamily8
  rw [toNat_fieldN]
  split <;> simp_all [eq_comm (a := e)]
  omega

theorem decodeFamilyE_error_iff {op : Word} {e : DecodeError} :
    decodeFamilyE op = .error e ↔ op.toNat % 0x100 ∉ [0x9E, 0xA1] ∧ e = .unknown op := by
  unfold decodeFamilyE
  rw [toNat_fieldNN]
  split <;> simp_all [eq_comm (a := e)]

theorem decodeFamilyF_error_iff {op : Word} {e : DecodeError} :
    decodeFamilyF op = .error e ↔
      op.toNat % 0x100 ∉ [0x07, 0x0A, 0x15, 0x18, 0x1E, 0x29, 0x33, 0x55, 0x65] ∧ e = .unknown op := by
  unfold decodeFamilyF
  rw [toNat_fieldNN]
  split <;> simp_all [eq_comm (a := e)]

/-- The words of R97, reserved family by family. -/
def reserved (op : Word) : Prop :=
  (op.toNat < 0x1000 ∧ op ≠ 0x00E0 ∧ op ≠ 0x00EE) ∨
  (op.toNat / 0x1000 = 0x5 ∧ op.toNat % 0x10 ≠ 0) ∨
  (op.toNat / 0x1000 = 0x8 ∧ op.toNat % 0x10 ∈ [0x8, 0x9, 0xA, 0xB, 0xC, 0xD, 0xF]) ∨
  (op.toNat / 0x1000 = 0x9 ∧ op.toNat % 0x10 ≠ 0) ∨
  (op.toNat / 0x1000 = 0xE ∧ op.toNat % 0x100 ∉ [0x9E, 0xA1]) ∨
  (op.toNat / 0x1000 = 0xF ∧ op.toNat % 0x100 ∉ [0x07, 0x0A, 0x15, 0x18, 0x1E, 0x29, 0x33, 0x55, 0x65])

/-- The decoder rejects exactly the words of R97, each by its own name. -/
theorem decode_error_iff {op : Word} {e : DecodeError} :
    decode op = .error e ↔ reserved op ∧ e = .unknown op := by
  have hfamily0 : op.toNat < 0x1000 ↔ op.toNat / 0x1000 = 0 := by omega
  have hN : fieldN op = 0#4 ↔ op.toNat % 0x10 = 0 := by rw [← toNat_fieldN, ← BitVec.toNat_inj]; rfl
  have hlt : op.toNat / 0x1000 < 16 := by omega
  unfold decode reserved
  rw [toNat_fieldOp, hfamily0]
  generalize op.toNat / 0x1000 = k at hlt
  interval_cases k <;>
    simp [hN, decodeN0_error_iff, decodeFamily0_error_iff, decodeFamily8_error_iff, decodeFamilyE_error_iff,
      decodeFamilyF_error_iff]

end Sys2Proof
end

section
/-! The statements about the encoding, settled. -/

namespace Sys2Proof

/-- Settles O2: the decoder reads back every field of every format. -/
theorem decodeOfEncodeIsTheInstruction : Obligations.DecodeOfEncodeIsTheInstruction := by
  unfold Obligations.DecodeOfEncodeIsTheInstruction
  intro i _
  exact decode_encode i

/-- Settles O3: a decoded word is the fields of its instruction put together again. -/
theorem encodeOfDecodeIsTheWord : Obligations.EncodeOfDecodeIsTheWord := by
  unfold Obligations.EncodeOfDecodeIsTheWord
  intro op i hdecode
  exact encode_of_decode hdecode

/-- Settles O4: the decoder rejects the reserved words, family by family. -/
theorem unknownWordsAreExactlyTheReservedOnes : Obligations.UnknownWordsAreExactlyTheReservedOnes := by
  unfold Obligations.UnknownWordsAreExactlyTheReservedOnes
  refine ⟨fun op => ⟨?_, ?_⟩, ?_⟩
  · rintro ⟨e, hdecode⟩
    exact (decode_error_iff.mp hdecode).1
  · intro hreserved
    exact ⟨.unknown op, decode_error_iff.mpr ⟨hreserved, rfl⟩⟩
  · intro op e hdecode
    exact (decode_error_iff.mp hdecode).2

/-- Settles O1: each of the fixed words is evaluated. -/
theorem specWordsDecodeAsWritten : Obligations.SpecWordsDecodeAsWritten := by
  unfold Obligations.SpecWordsDecodeAsWritten
  decide

end Sys2Proof
end

section
/-! SUPPORT. The invariant, field by field: what an instruction does to PC, to the return addresses and to RAM's
canonical form; and that it does not see RAM unless it accesses it. -/

namespace Sys2Proof.Machine

/-! ## Replacing RAM -/

/-- RAM replaced. -/
def State.withMem (s : State) (m : List Host.Cell) : State := { s with mem := m }

/-- An instruction that accesses no RAM does the same whatever RAM holds (R215). -/
theorem exec_withMem {i : Instr} {s t : State} (m : List Host.Cell) (hldB : ∀ x, i ≠ .ldB x)
    (hldStore : ∀ x, i ≠ .ldStore x) (hldLoad : ∀ x, i ≠ .ldLoad x) (hdrw : ∀ x y n, i ≠ .drw x y n)
    (h : exec i s = .next t) : exec i (s.withMem m) = .next (t.withMem m) := by
  cases i with
  | ldB x => exact absurd rfl (hldB x)
  | ldStore x => exact absurd rfl (hldStore x)
  | ldLoad x => exact absurd rfl (hldLoad x)
  | drw x y n => exact absurd rfl (hdrw x y n)
  | call nnn =>
    obtain ⟨hsp, he⟩ | ⟨hsp, he⟩ := exec_call_cases nnn s <;> cases he.symm.trans h
    · exact exec_call_ok nnn (s.withMem m) hsp
    · exact exec_call_full nnn (s.withMem m) hsp
  | ret =>
    obtain ⟨hsp, he⟩ | ⟨hsp, he⟩ := exec_ret_cases s <;> cases he.symm.trans h
    · exact exec_ret_ok (s.withMem m) hsp
    · exact exec_ret_empty (s.withMem m) hsp
  | ldVxK x =>
    obtain ⟨k, hk, he⟩ | ⟨hk, he⟩ := exec_ldVxK_cases x s <;> cases he.symm.trans h
    · exact exec_ldVxK_some x (s := s.withMem m) hk
    · exact exec_ldVxK_none x (s := s.withMem m) hk
  | _ =>
    -- Every other instruction has one outcome, which `exec` computes to.
    cases h; rfl

/-- An instruction that accesses no RAM leaves it: run on its own RAM it answers the same state with that RAM. -/
theorem exec_keeps_mem {i : Instr} {s t : State} (hldB : ∀ x, i ≠ .ldB x) (hldStore : ∀ x, i ≠ .ldStore x)
    (hldLoad : ∀ x, i ≠ .ldLoad x) (hdrw : ∀ x y n, i ≠ .drw x y n) (h : exec i s = .next t) : t.mem = s.mem := by
  have hself : t = t.withMem s.mem :=
    Host.Outcome.next.inj (h.symm.trans (exec_withMem s.mem hldB hldStore hldLoad hdrw h))
  exact (congrArg State.mem hself).trans rfl

/-! ## RAM -/

theorem State.writeBytes_inv {s : State} {base : Nat} {bs : List Byte} (hs : s.Inv) (hin : base + bs.length ≤ memSize) :
    (s.writeBytes base bs).Inv where
  pc_bound := by simpa using hs.pc_bound
  return_addresses := by simpa using hs.return_addresses
  memory_wf := by simpa using s.writeBytes_wf base bs hs.memory_wf hin
  fault_from_step := by simpa using hs.fault_from_step
  config_wf := by simpa using hs.config_wf

/-- Every instruction keeps RAM canonical: what it writes it has checked to be inside RAM (R63). -/
theorem exec_memory_wf {i : Instr} {s t : State} (h : exec i s = .next t)
    (hs : Memory.wf (resetByte s.config) s.mem) : Memory.wf (resetByte t.config) t.mem := by
  cases i with
  | ldB x =>
    obtain ⟨hin, he⟩ | ⟨_, he⟩ := exec_ldB_cases x s <;> cases he.symm.trans h
    · simpa using s.advance.writeBytes_wf s.i.toNat (bcdDigits (s.getV x)) hs
        (by rw [bcdDigits_length]; exact Nat.succ_le_succ hin)
    · exact hs
  | ldStore x =>
    obtain ⟨hin, he⟩ | ⟨_, he⟩ := exec_ldStore_cases x s <;> cases he.symm.trans h
    · simpa using s.advance.writeBytes_wf s.i.toNat (dumpedBytes s x) hs
        (by rw [dumpedBytes_length]; exact Nat.succ_le_succ hin)
    · exact hs
  | ldLoad x =>
    obtain ⟨_, he⟩ | ⟨_, he⟩ := exec_ldLoad_cases x s <;> cases he.symm.trans h
    all_goals exact hs
  | drw x y n =>
    obtain ⟨_, he⟩ | ⟨_, he⟩ := exec_drw_cases x y n s <;> cases he.symm.trans h
    all_goals exact hs
  | _ =>
    rw [(exec_keeps_key_config h).2, exec_keeps_mem (by simp) (by simp) (by simp) (by simp) h]
    exact hs

/-! ## PC and the return addresses -/

/-- The fetch advance of a fetchable PC does not wrap. -/
theorem State.toNat_pc_add_two {s : State} (hpc : s.pc.toNat ≤ 0xFFE) : (s.pc + 2).toNat = s.pc.toNat + 2 := by
  bv_omega

theorem State.toNat_pc_skip_le {s : State} (hpc : s.pc.toNat ≤ 0xFFE) (c : Bool) :
    (s.advance.skip c).pc.toNat ≤ 0x10FE := by
  rw [State.skip_pc, State.advance_pc]
  split <;> bv_omega

/-- An instruction that does not write PC leaves it at the next word, or at its own if it raises an error. -/
theorem exec_pc_of_not_writes {i : Instr} {s t : State} (h : exec i s = .next t) (hp : ¬ writes i .pc) :
    t.pc = s.pc + 2 ∨ t.pc = s.pc := by
  obtain hframe | ⟨e, -, rfl⟩ := exec_completes_or_raises h
  · exact .inl (hframe .pc hp)
  · exact .inr rfl

theorem addrImm_bound (nnn : Addr12) : (addrImm nnn).toNat ≤ 0x10FE := by
  rw [toNat_addrImm]; omega

/-- PC stays at or below 0x10FE, the highest target being that of JP V0 (R26, R138). -/
theorem exec_pc_bound {i : Instr} {s t : State} (hs : s.Inv) (hpc : s.pc.toNat ≤ 0xFFE) (h : exec i s = .next t) :
    t.pc.toNat ≤ 0x10FE := by
  have hnext := State.toNat_pc_add_two hpc
  cases i with
  | jp nnn => cases h; exact addrImm_bound nnn
  | jpV0 nnn =>
    cases h
    have hsum := toNat_addrImm_add_wideV nnn s 0
    show (addrImm nnn + wideV s 0).toNat ≤ 0x10FE
    omega
  | seImm | sneImm | seReg | sneReg | skp | sknp => cases h; exact State.toNat_pc_skip_le hpc _
  | call nnn =>
    obtain ⟨_, he⟩ | ⟨_, he⟩ := exec_call_cases nnn s <;> cases he.symm.trans h
    · exact addrImm_bound nnn
    · exact hs.pc_bound
  | ret =>
    obtain ⟨hsp, he⟩ | ⟨_, he⟩ := exec_ret_cases s <;> cases he.symm.trans h
    · exact (hs.return_addresses ⟨s.sp.val - 1, by omega⟩ (Nat.sub_one_lt_of_lt hsp)).trans (by decide)
    · exact hs.pc_bound
  | ldVxK x =>
    obtain ⟨_, _, he⟩ | ⟨_, he⟩ := exec_ldVxK_cases x s <;> cases he.symm.trans h
    · show (s.pc + 2).toNat ≤ 0x10FE
      omega
    · exact hs.pc_bound
  | _ => obtain he | he := exec_pc_of_not_writes h (by simp [writes]) <;> rw [he] <;> omega

/-- The return address CALL pushes is the word after a fetchable PC, so at most 0x1000 (R26, R132). -/
theorem exec_return_addresses {i : Instr} {s t : State} (hs : s.Inv) (hpc : s.pc.toNat ≤ 0xFFE)
    (h : exec i s = .next t) (k : Fin 16) (hk : k.val < t.sp.val) : t.stack[k.val].toNat ≤ 0x1000 := by
  cases i with
  | call nnn =>
    obtain ⟨hsp, he⟩ | ⟨_, he⟩ := exec_call_cases nnn s <;> cases he.symm.trans h
    · by_cases hks : s.sp.val = k.val
      · have hnext := State.toNat_pc_add_two hpc
        simp only [← hks, Vector.getElem_set_self]
        omega
      · have hlt : k.val < s.sp.val := Nat.lt_of_le_of_ne (Nat.le_of_lt_succ hk) (Ne.symm hks)
        simpa [hks] using hs.return_addresses k hlt
    · exact hs.return_addresses k hk
  | ret =>
    obtain ⟨_, he⟩ | ⟨_, he⟩ := exec_ret_cases s <;> cases he.symm.trans h
    · exact hs.return_addresses k (Nat.lt_of_lt_pred hk)
    · exact hs.return_addresses k hk
  | _ =>
    have hsp : t.sp = s.sp := exec_keeps .sp h (by simp [writes]) nofun nofun
    have hstack : t.stack[k.val] = s.stack[k.val] := exec_keeps (.stack k) h (by simp [writes]) nofun nofun
    rw [hstack]
    exact hs.return_addresses k (hsp ▸ hk)

/-! ## The invariant -/

/-- The invariant depends on six fields. -/
theorem State.Inv.congr {s t : State} (hs : s.Inv) (hpc : t.pc = s.pc) (hsp : t.sp = s.sp) (hstack : t.stack = s.stack)
    (hmem : t.mem = s.mem) (hfault : t.fault = s.fault) (hconfig : t.config = s.config) : t.Inv where
  pc_bound := hpc ▸ hs.pc_bound
  return_addresses := by rw [hsp, hstack]; exact hs.return_addresses
  memory_wf := by rw [hconfig, hmem]; exact hs.memory_wf
  fault_from_step := hfault ▸ hs.fault_from_step
  config_wf := hconfig ▸ hs.config_wf

theorem State.Inv.raise {s : State} {e : VmError} (hs : s.Inv) (he : isStepError e) : (s.raise e).Inv where
  pc_bound := hs.pc_bound
  return_addresses := hs.return_addresses
  memory_wf := hs.memory_wf
  fault_from_step := by rintro _ ⟨⟩; exact he
  config_wf := hs.config_wf

/-- Every error an instruction raises is one a step can record. -/
theorem isStepError_of_raises {s : State} {e : VmError} {i : Instr} (h : Raises s e i) : isStepError e := by
  cases i with
  | call nnn => obtain ⟨-, rfl⟩ := h; trivial
  | ret => obtain ⟨-, rfl⟩ := h; trivial
  | drw | ldB | ldStore | ldLoad => cases h; exact Nat.le_max_right _ _
  | _ => cases h

theorem writes_fault (i : Instr) : ¬ writes i .fault := by cases i <;> simp [writes]

theorem exec_inv {i : Instr} {s t : State} (hs : s.Inv) (hpc : s.pc.toNat ≤ 0xFFE) (h : exec i s = .next t) :
    t.Inv := by
  obtain hframe | ⟨e, he, rfl⟩ := exec_completes_or_raises h
  · have hfault : t.fault = s.fault := hframe .fault (writes_fault i)
    exact {
      pc_bound := exec_pc_bound hs hpc h
      return_addresses := exec_return_addresses hs hpc h
      memory_wf := exec_memory_wf h hs.memory_wf
      fault_from_step := hfault ▸ hs.fault_from_step
      config_wf := (exec_keeps_key_config h).2 ▸ hs.config_wf }
  · exact hs.raise (isStepError_of_raises he)

theorem step_inv {s t : State} (hs : s.Inv) (h : step s = .next t) : t.Inv := by
  obtain ⟨_, _, rfl⟩ | ⟨_, _, rfl⟩ | ⟨op, e, _, _, _, hdecode, rfl⟩ | ⟨_, i, _, hpc, _, _, he⟩ := step_cases h
  · exact hs
  · exact hs.raise (Nat.le_max_right _ _)
  · exact hs.raise ⟨e, hdecode⟩
  · exact exec_inv hs hpc he

theorem State.resetWith_inv {c : Config} (hc : c.wellFormed = true) : (State.resetWith c).Inv where
  pc_bound := (by decide : (0x200 : Word).toNat ≤ 0x10FE)
  return_addresses := fun k hk => absurd hk (Nat.not_lt_zero k)
  memory_wf := Memory.wf_nil _
  fault_from_step := nofun
  config_wf := hc

/-- LOAD writes from 0x200 to at most the end of RAM (R71). -/
theorem State.load_inv {s : State} (hs : s.Inv) (rom : List Byte) : (s.load rom).1.Inv := by
  obtain ⟨-, h⟩ | ⟨hfits, h⟩ := s.load_cases rom <;> rw [h]
  · exact hs
  · refine State.writeBytes_inv hs ?_
    simp only [romMax, memSize, progStart] at hfits ⊢
    omega

theorem perform_inv {op : HostOp} {s t : State} {r : Reply} (hs : s.Inv) (h : perform op s = .next (t, r)) :
    t.Inv := by
  cases op with
  | reset c =>
    obtain ⟨hc, rfl, -⟩ := perform_reset_iff.mp h
    exact (State.resetWith_inv hc).congr rfl rfl rfl rfl rfl rfl
  | load rom => cases h; exact State.load_inv hs rom
  | step => exact step_inv hs (perform_step_iff.mp h).1
  | tick => cases h; exact hs.congr rfl rfl rfl rfl rfl rfl
  | setKey k b => obtain ⟨-, rfl, -⟩ := perform_setKey_iff.mp h; exact hs.congr rfl rfl rfl rfl rfl rfl
  | readDisplay | readSound | readStatus => cases h; exact hs

end Sys2Proof.Machine
end

section
/-! The statements about the invariant, settled. -/

namespace Sys2Proof.Machine

/-- Settles O13: a step repeats its state, raises an error of a step, or runs an instruction at a fetchable PC, and
each keeps the invariant. -/
theorem stepKeepsTheInvariant : Obligations.StepKeepsTheInvariant := by
  unfold Obligations.StepKeepsTheInvariant
  intro s t hs hstep
  exact step_inv hs hstep

/-- Settles O14: RESET establishes the invariant and every other operation keeps it. -/
theorem hostOperationsKeepTheInvariant : Obligations.HostOperationsKeepTheInvariant := by
  unfold Obligations.HostOperationsKeepTheInvariant
  intro op s t r hs hperform
  exact perform_inv hs hperform

/-- Settles O12: the reset values meet each clause, the default configuration being in range. -/
theorem invariantHoldsAtReset : Obligations.InvariantHoldsAtReset := by
  unfold Obligations.InvariantHoldsAtReset
  exact ⟨State.resetWith_inv (by decide), fun _ hc => State.resetWith_inv hc⟩

end Sys2Proof.Machine
end

section
/-! SUPPORT. Replacing the parts that almost no instruction reads: ST, and the stack, of which RET reads the entry below
SP and nothing reads an entry at or above it. -/

namespace Sys2Proof.Machine

/-! ## Replacing the stack and ST -/

/-- The stack and ST replaced, each by its image. -/
def State.mapStackSt (s : State) (g : Vector Word 16 → Vector Word 16) (b : Byte → Byte) : State :=
  { s with stack := g s.stack, st := b s.st }

theorem State.writeBytes_mapStackSt (s : State) (g : Vector Word 16 → Vector Word 16) (b : Byte → Byte) (base : Nat)
    (bs : List Byte) : (s.mapStackSt g b).writeBytes base bs = (s.writeBytes base bs).mapStackSt g b :=
  State.writeBytes_comm (f := (·.mapStackSt g b)) (fun _ _ _ => rfl) s base bs

/-- An instruction other than CALL, RET and LD ST does the same whatever the stack and ST hold (R30, R31). -/
theorem exec_mapStackSt {i : Instr} {s t : State} (g : Vector Word 16 → Vector Word 16) (b : Byte → Byte)
    (hcall : ∀ nnn, i ≠ .call nnn) (hret : i ≠ .ret) (hldSt : ∀ x, i ≠ .ldSt x) (h : exec i s = .next t) :
    exec i (s.mapStackSt g b) = .next (t.mapStackSt g b) := by
  cases i with
  | call nnn => exact absurd rfl (hcall nnn)
  | ret => exact absurd rfl hret
  | ldSt x => exact absurd rfl (hldSt x)
  | ldB x =>
    obtain ⟨hi, he⟩ | ⟨hi, he⟩ := exec_ldB_cases x s <;> cases he.symm.trans h
    · rw [exec_ldB_ok x (s := s.mapStackSt g b) hi]
      exact congrArg Host.Outcome.next (s.advance.writeBytes_mapStackSt g b _ _)
    · exact exec_ldB_error x (s := s.mapStackSt g b) hi
  | ldStore x =>
    obtain ⟨hi, he⟩ | ⟨hi, he⟩ := exec_ldStore_cases x s <;> cases he.symm.trans h
    · rw [exec_ldStore_ok x (s := s.mapStackSt g b) hi]
      exact congrArg (fun u : State => Host.Outcome.next (u.setI (indexAfter s x)))
        (s.advance.writeBytes_mapStackSt g b _ _)
    · exact exec_ldStore_error x (s := s.mapStackSt g b) hi
  | ldLoad x =>
    obtain ⟨hi, he⟩ | ⟨hi, he⟩ := exec_ldLoad_cases x s <;> cases he.symm.trans h
    · exact exec_ldLoad_ok x (s := s.mapStackSt g b) hi
    · exact exec_ldLoad_error x (s := s.mapStackSt g b) hi
  | drw x y n =>
    obtain ⟨hi, he⟩ | ⟨⟨hn, hi⟩, he⟩ := exec_drw_cases x y n s <;> cases he.symm.trans h
    · exact exec_drw_ok x y n (s := s.mapStackSt g b) hi
    · exact exec_drw_error x y n (s := s.mapStackSt g b) hn hi
  | ldVxK x =>
    obtain ⟨k, hk, he⟩ | ⟨hk, he⟩ := exec_ldVxK_cases x s <;> cases he.symm.trans h
    · exact exec_ldVxK_some x (s := s.mapStackSt g b) hk
    · exact exec_ldVxK_none x (s := s.mapStackSt g b) hk
  | _ =>
    -- Every other instruction has one outcome, which `exec` computes to.
    cases h; rfl

/-- An instruction other than LD ST does the same whatever ST holds (R31). -/
theorem exec_setSt {i : Instr} {s t : State} (b : Byte) (hldSt : ∀ x, i ≠ .ldSt x) (h : exec i s = .next t) :
    exec i (s.setSt b) = .next (t.setSt b) := by
  cases i with
  | call nnn =>
    obtain ⟨hsp, he⟩ | ⟨hsp, he⟩ := exec_call_cases nnn s <;> cases he.symm.trans h
    · exact exec_call_ok nnn (s.setSt b) hsp
    · exact exec_call_full nnn (s.setSt b) hsp
  | ret =>
    obtain ⟨hsp, he⟩ | ⟨hsp, he⟩ := exec_ret_cases s <;> cases he.symm.trans h
    · exact exec_ret_ok (s.setSt b) hsp
    · exact exec_ret_empty (s.setSt b) hsp
  | _ => exact exec_mapStackSt id (fun _ => b) (by simp) (by simp) hldSt h

/-! ## Stacks that agree below a depth -/

/-- Two stacks hold the same entries below a depth. -/
def AgreeBelow (d : Fin 17) (w u : Vector Word 16) : Prop := ∀ k : Fin 16, k.val < d.val → w[k.val] = u[k.val]

/-- The stack replaced. -/
def State.withStack (s : State) (w : Vector Word 16) : State := { s with stack := w }

/-- A push keeps stacks that agree below SP agreeing below the new SP. -/
theorem AgreeBelow.push {d : Nat} {w u : Vector Word 16} (hd : d < 16) (h : AgreeBelow ⟨d, by omega⟩ w u) (v : Word) :
    AgreeBelow ⟨d + 1, by omega⟩ (w.set d v hd) (u.set d v hd) := by
  intro k hk
  by_cases hkd : d = k.val
  · simp [← hkd]
  · have hlt : k.val < d := Nat.lt_of_le_of_ne (Nat.le_of_lt_succ hk) (Ne.symm hkd)
    simpa [hkd] using h k hlt

/-- No instruction sees an entry of the stack at or above SP: RET pops the entry below it (R29, R30). -/
theorem exec_withStack {i : Instr} {s t : State} {w : Vector Word 16} (hw : AgreeBelow s.sp w s.stack)
    (h : exec i s = .next t) :
    ∃ w', exec i (s.withStack w) = .next (t.withStack w') ∧ AgreeBelow t.sp w' t.stack := by
  cases i with
  | call nnn =>
    obtain ⟨hsp, he⟩ | ⟨hsp, he⟩ := exec_call_cases nnn s <;> cases he.symm.trans h
    · exact ⟨_, exec_call_ok nnn (s.withStack w) hsp, hw.push hsp _⟩
    · exact ⟨w, exec_call_full nnn (s.withStack w) hsp, hw⟩
  | ret =>
    obtain ⟨hsp, he⟩ | ⟨hsp, he⟩ := exec_ret_cases s <;> cases he.symm.trans h
    · refine ⟨w, ?_, fun k hk => hw k (Nat.lt_of_lt_pred hk)⟩
      have htop := hw ⟨s.sp.val - 1, by omega⟩ (Nat.sub_one_lt_of_lt hsp)
      rw [exec_ret_ok (s.withStack w) hsp]
      simp only [State.withStack] at htop ⊢
      rw [htop]
    · exact ⟨w, exec_ret_empty (s.withStack w) hsp, hw⟩
  | ldSt x => cases h; exact ⟨w, rfl, hw⟩
  | _ =>
    have hsp : t.sp = s.sp := exec_keeps .sp h (by simp [writes]) nofun nofun
    refine ⟨w, exec_mapStackSt (fun _ => w) id (by simp) (by simp) (by simp) h, fun k hk => ?_⟩
    have hstack : t.stack[k.val] = s.stack[k.val] := exec_keeps (.stack k) h (by simp [writes]) nofun nofun
    exact (hw k (hsp ▸ hk)).trans hstack.symm

/-- No step sees an entry of the stack at or above SP: the fetch reads RAM and PC. -/
theorem step_withStack {s t : State} {w : Vector Word 16} (hw : AgreeBelow s.sp w s.stack) (h : step s = .next t) :
    ∃ w', step (s.withStack w) = .next (t.withStack w') ∧ AgreeBelow t.sp w' t.stack := by
  obtain ⟨_, hf, rfl⟩ | ⟨hf, hpc, rfl⟩ | ⟨_, _, hf, _, hfetch, hdecode, rfl⟩ | ⟨_, _, hf, _, hfetch, hdecode, he⟩ :=
    step_cases h
  · exact ⟨w, step_faulted (s := t.withStack w) hf, hw⟩
  · exact ⟨w, step_fetch_error (s := s.withStack w) hf hpc, hw⟩
  · exact ⟨w, step_unknown (s := s.withStack w) hf hfetch hdecode, hw⟩
  · obtain ⟨w', he', hw'⟩ := exec_withStack hw he
    exact ⟨w', (step_exec (s := s.withStack w) hf hfetch hdecode).trans he', hw'⟩

theorem State.load_withStack (s : State) (rom : List Byte) (w : Vector Word 16) :
    (s.withStack w).load rom = ((s.load rom).1.withStack w, (s.load rom).2) := by
  unfold State.load
  split
  · rfl
  · exact congrArg (·, none) (s.writeBytes_comm (f := (·.withStack w)) (fun _ _ _ => rfl) progStart rom)

@[simp] theorem State.load_sp (s : State) (rom : List Byte) : (s.load rom).1.sp = s.sp := by
  obtain ⟨-, h⟩ | ⟨-, h⟩ := s.load_cases rom <;> simp [h]

@[simp] theorem State.load_stack (s : State) (rom : List Byte) : (s.load rom).1.stack = s.stack := by
  obtain ⟨-, h⟩ | ⟨-, h⟩ := s.load_cases rom <;> simp [h]

/-- No operation of the host sees an entry of the stack at or above SP (R30). -/
theorem perform_withStack {op : HostOp} {s t : State} {r : Reply} {w : Vector Word 16}
    (hw : AgreeBelow s.sp w s.stack) (h : perform op s = .next (t, r)) :
    ∃ w', perform op (s.withStack w) = .next (t.withStack w', r) ∧ AgreeBelow t.sp w' t.stack := by
  cases op with
  | reset c =>
    obtain ⟨hc, rfl, rfl⟩ := perform_reset_iff.mp h
    exact ⟨(s.resetPort c).stack, perform_reset_iff.mpr ⟨hc, rfl, rfl⟩, fun _ _ => rfl⟩
  | load rom =>
    cases h
    refine ⟨w, by simp only [perform, State.load_withStack], ?_⟩
    rw [State.load_sp, State.load_stack]
    exact hw
  | step =>
    obtain ⟨hstep, rfl⟩ := perform_step_iff.mp h
    obtain ⟨w', hstep', hw'⟩ := step_withStack hw hstep
    exact ⟨w', perform_step_iff.mpr ⟨hstep', rfl⟩, hw'⟩
  | setKey k b =>
    obtain ⟨hk, rfl, rfl⟩ := perform_setKey_iff.mp h
    exact ⟨w, perform_setKey_iff.mpr ⟨hk, rfl, rfl⟩, hw⟩
  | tick | readDisplay | readSound | readStatus => cases h; exact ⟨w, rfl, hw⟩

end Sys2Proof.Machine
end

section
/-! The statements about what an operation depends on, settled. -/

namespace Sys2Proof.Machine

/-- Settles O20: stacks that agree below SP are replaced under every operation, and agree below the new SP after it. -/
theorem stackAboveDepthIsUnobservable : Obligations.StackAboveDepthIsUnobservable := by
  unfold Obligations.StackAboveDepthIsUnobservable
  intro op s t r w hw hperform
  exact perform_withStack hw hperform

/-- Settles O19: LD ST overwrites the replaced ST, and every other instruction runs alike on it. -/
theorem soundTimerIsNeverRead : Obligations.SoundTimerIsNeverRead := by
  unfold Obligations.SoundTimerIsNeverRead
  intro i s t b h
  by_cases hldSt : ∃ x, i = .ldSt x
  · obtain ⟨x, rfl⟩ := hldSt
    cases h
    rw [if_pos ⟨x, rfl⟩]
    rfl
  · rw [if_neg hldSt]
    exact exec_setSt b (not_exists.mp hldSt) h

/-- Settles O17: RAM is among the parts only LD B and LD [I] write, and the instructions that access none run alike on a
replaced RAM. -/
theorem onlyTheNamedInstructionsTouchRam : Obligations.OnlyTheNamedInstructionsTouchRam := by
  unfold Obligations.OnlyTheNamedInstructionsTouchRam
  refine ⟨fun i s t a hldB hldStore h => ?_, fun i s t m hldB hldStore hldLoad hdrw h => ?_⟩
  · refine exec_keeps (.byte a) h ?_ nofun nofun
    cases i with
    | ldB x => exact absurd rfl (hldB x)
    | ldStore x => exact absurd rfl (hldStore x)
    | _ => simp [writes]
  · exact exec_withMem m hldB hldStore hldLoad hdrw h

end Sys2Proof.Machine
end

section
/-! The statements about which instruction does what, settled from the parts each may write and the error each may
raise. -/

namespace Sys2Proof.Machine

/-- Settles O10: from a state with no Fault a recorded error is the one the instruction raises. -/
theorem onlyTheNamedInstructionsRaise : Obligations.OnlyTheNamedInstructionsRaise := by
  unfold Obligations.OnlyTheNamedInstructionsRaise
  intro i s t e hnone h he
  obtain hframe | ⟨e', hraises, rfl⟩ := exec_completes_or_raises h
  · have hkept : t.fault = s.fault := hframe .fault (writes_fault i)
    rw [hkept, hnone] at he
    cases he
  · cases he
    cases i with
    | call nnn => exact .inl ⟨⟨nnn, rfl⟩, hraises⟩
    | ret => exact .inr (.inl ⟨rfl, hraises⟩)
    | drw x y n => exact .inr (.inr ⟨.inl ⟨x, y, n, rfl⟩, hraises⟩)
    | ldB x => exact .inr (.inr ⟨.inr (.inl ⟨x, rfl⟩), hraises⟩)
    | ldStore x => exact .inr (.inr ⟨.inr (.inr (.inl ⟨x, rfl⟩)), hraises⟩)
    | ldLoad x => exact .inr (.inr ⟨.inr (.inr (.inr ⟨x, rfl⟩)), hraises⟩)
    | _ => cases hraises

/-- Settles O22: an instruction that completes and does not write PC leaves it at the next word. -/
theorem onlyTheNamedInstructionsTransferControl : Obligations.OnlyTheNamedInstructionsTransferControl := by
  unfold Obligations.OnlyTheNamedInstructionsTransferControl
  intro i s t _ h hnone hpc
  obtain hframe | ⟨e, -, rfl⟩ := exec_completes_or_raises h
  · have hwrites : writes i .pc := by
      by_contra hp
      exact hpc (hframe .pc hp)
    cases i <;> simp [writes] at hwrites ⊢
  · cases hnone

/-- Settles O23: the instructions that may write VF. -/
theorem vfChangesOnlyAsFlagOrDestination : Obligations.VfChangesOnlyAsFlagOrDestination := by
  unfold Obligations.VfChangesOnlyAsFlagOrDestination
  intro i s t h hvf
  have hwrites : writes i (.reg 0xF) := by
    by_contra hp
    exact hvf (exec_keeps (.reg 0xF) h hp nofun nofun)
  cases i with
  | ldLoad x =>
    have hx : x = 0xF := by
      obtain hindex | ⟨k, hk, hreg⟩ := hwrites
      · cases hindex
      · cases hreg
        exact BitVec.eq_of_toNat_eq (Nat.le_antisymm (Nat.le_of_lt_succ x.isLt) hk)
    simp [hx]
  | _ => simp_all [writes]

/-- Settles O54: DT and ST are each written by one instruction. -/
theorem stepsDoNotCountTimers : Obligations.StepsDoNotCountTimers := by
  unfold Obligations.StepsDoNotCountTimers
  intro i s t h
  refine ⟨fun hldDt => exec_keeps .dt h ?_ nofun nofun, fun hldSt => exec_keeps .st h ?_ nofun nofun⟩
  · cases i with
    | ldDt x => exact absurd rfl (hldDt x)
    | _ => simp [writes]
  · cases i with
    | ldSt x => exact absurd rfl (hldSt x)
    | _ => simp [writes]

end Sys2Proof.Machine
end

section
/-! SUPPORT. Steps that answer the state they began in, and runs of them: the end of a run and the wait for a key. -/

namespace Sys2Proof.Machine

/-- A step that answers its own state is repeated by a run of any length. -/
theorem run_of_step_self {s : State} (h : step s = .next s) (k : Nat) : Host.Core.run Sys2Proof.core k s = .next s := by
  induction k with
  | zero => rfl
  | succ k ih =>
    have hstep : Sys2Proof.core.step s = .next s := h
    simp only [Host.Core.run, hstep, ih]

/-- With no key pressed a waiting block steps to itself (R280, R281). -/
theorem step_waiting {s : State} (hawaiting : s.awaitingKey = true) (hwaits : s.WaitsAtKey) (hnone : s.noKeyPressed) :
    step s = .next s := by
  obtain ⟨hfault, op, x, hfetch, hdecode⟩ := hwaits hawaiting
  rw [step_exec hfault hfetch hdecode, exec_ldVxK_none x (s.lowestPressedKey_none.mpr hnone), State.setAwaitingKey,
    ← hawaiting]

/-- A jump to itself steps to itself (R361). -/
theorem step_atEnd {s : State} {a : Addr12} (h : s.AtEnd a) : step s = .next s := by
  obtain ⟨hfault, hpc, op, hfetch, hdecode⟩ := h
  have htarget : addrImm a = s.pc := hpc.symm
  rw [step_exec hfault hfetch hdecode, exec_jp, htarget]
  rfl

/-- Every state has a next state, an error being one too. -/
theorem step_next (s : State) : ∃ t, step s = .next t := by
  cases hfault : s.fault with
  | some e => exact ⟨s, step_faulted hfault⟩
  | none =>
    by_cases hpc : s.pc.toNat ≤ 0xFFE
    · have hfetch := State.fetch_eq_shift_or hpc
      cases hdecode : decode
        (((s.readByte s.pc.toNat).setWidth 16 <<< 8) ||| (s.readByte (s.pc.toNat + 1)).setWidth 16) with
      | error e => exact ⟨_, step_unknown hfault hfetch hdecode⟩
      | ok i => rw [step_exec hfault hfetch hdecode]; exact exec_next i s
    · exact ⟨_, step_fetch_error hfault (Nat.lt_of_not_le hpc)⟩

/-! ## The wait for a key -/

/-- Only the wait sets AwaitingKey: a step that leaves it set is a wait, or leaves a waiting block waiting (R35). -/
theorem step_waitsAtKey {s t : State} (hs : s.WaitsAtKey) (h : step s = .next t) : t.WaitsAtKey := by
  intro hawaiting
  obtain ⟨_, _, rfl⟩ | ⟨_, hpc, rfl⟩ | ⟨_, _, _, _, hfetch, hdecode, rfl⟩ | ⟨op, i, hfault, _, hfetch, hdecode, he⟩ :=
    step_cases h
  · exact hs hawaiting
  · obtain ⟨_, _, _, hfetch, _⟩ := hs hawaiting
    rw [State.fetch_eq, if_neg (Nat.not_le_of_gt hpc)] at hfetch
    cases hfetch
  · obtain ⟨_, _, _, hfetch', hdecode'⟩ := hs hawaiting
    cases hfetch.symm.trans hfetch'
    cases hdecode.symm.trans hdecode'
  · obtain ⟨x, rfl⟩ : ∃ x, i = .ldVxK x := by
      by_contra hother
      have hkept : t.awaitingKey = s.awaitingKey := by
        refine exec_keeps .awaitingKey he ?_ nofun nofun
        cases i with
        | ldVxK x => exact absurd ⟨x, rfl⟩ hother
        | _ => simp [writes]
      obtain ⟨_, op', x, hfetch', hdecode'⟩ := hs (hkept ▸ hawaiting)
      cases hfetch.symm.trans hfetch'
      cases hdecode.symm.trans hdecode'
      exact hother ⟨x, rfl⟩
    obtain ⟨_, _, hstored⟩ | ⟨_, hheld⟩ := exec_ldVxK_cases x s
    · cases hstored.symm.trans he
      cases hawaiting
    · cases hheld.symm.trans he
      exact ⟨hfault, op, x, hfetch, hdecode⟩

end Sys2Proof.Machine
end

section
/-! The statements about runs and the wait for a key, settled. -/

namespace Sys2Proof.Machine

/-- Settles O11: a recorded error, an error of the fetch or the decoder, and an instruction each answer a state. -/
theorem everyStepAnswersNext : Obligations.EveryStepAnswersNext := by
  unfold Obligations.EveryStepAnswersNext
  exact step_next

/-- Settles O15: RESET clears AwaitingKey, a step keeps the claim, and the other operations leave all it speaks of. -/
theorem awaitingKeyMeansPcAtTheWait : Obligations.AwaitingKeyMeansPcAtTheWait := by
  unfold Obligations.AwaitingKeyMeansPcAtTheWait
  refine ⟨nofun, fun op s t r hload hs h => ?_⟩
  cases op with
  | load rom => exact absurd rfl (hload rom)
  | reset c => obtain ⟨-, rfl, -⟩ := perform_reset_iff.mp h; exact nofun
  | step => exact step_waitsAtKey hs (perform_step_iff.mp h).1
  | setKey k b => obtain ⟨-, rfl, -⟩ := perform_setKey_iff.mp h; exact hs
  | tick | readDisplay | readSound | readStatus => cases h; exact hs

/-- Settles O50: a waiting block with no key pressed steps to itself. -/
theorem waitingRunsStayPut : Obligations.WaitingRunsStayPut := by
  unfold Obligations.WaitingRunsStayPut
  intro s hawaiting hwaits hnone k
  exact run_of_step_self (step_waiting hawaiting hwaits hnone) k

/-- Settles O51: a jump to itself steps to itself. -/
theorem endOfRunIsAFixedPoint : Obligations.EndOfRunIsAFixedPoint := by
  unfold Obligations.EndOfRunIsAFixedPoint
  intro s a hend k
  exact run_of_step_self (step_atEnd hend) k

end Sys2Proof.Machine
end

section
/-! SUPPORT. Two instructions in a row and a result read with its flag: what CALL leaves for RET, a dump for the fetch
and a draw for the same draw; the equations of R168 to R181; and the word `withFetchWord` places. -/

namespace Sys2Proof.Machine

/-! ## A result and its flag -/

theorem shiftSource_eq_ite (s : State) (x y : Nibble) :
    shiftSource s x y = if s.config.quirkMode = .modern then s.getV x else s.getV y := by
  cases h : s.config.quirkMode
  · rw [shiftSource_modern h, if_pos rfl]
  · rw [shiftSource_legacy h, if_neg nofun]

/-- A byte that is a condition's truth value, as a number. -/
theorem toNat_ite_one_zero (P : Prop) [Decidable P] : (if P then 1 else 0 : Byte).toNat = if P then 1 else 0 := by
  split <;> rfl

/-- Difference and flag of a subtraction are the exact difference plus 256, the flag read as NOT borrow (R170, R171). -/
theorem subtract_exact {i : Instr} {s : State} {x : Nibble} {a b : Byte} (hx : x ≠ 0xF)
    (h : exec i s = .next (s.advance.setVThenFlag x (a - b) (subFlag s.config.subFlagPolarity a b))) :
    (s.config.subFlagPolarity = .notBorrow → ∃ t, exec i s = .next t ∧
      256 * (t.getV 0xF).toNat + (t.getV x).toNat = a.toNat + 256 - b.toNat) ∧
    (s.config.subFlagPolarity = .borrow → ∃ t, exec i s = .next t ∧
      (t.getV x).toNat + 256 * (1 - (t.getV 0xF).toNat) = a.toNat + 256 - b.toNat) := by
  obtain ⟨t, hexec, hnotBorrow, hborrow, hresult, -⟩ := subtract_spec h
  refine ⟨fun hpol => ⟨t, hexec, ?_⟩, fun hpol => ⟨t, hexec, ?_⟩⟩
  · rw [hresult hx, hnotBorrow hpol, toNat_ite_one_zero]
    split <;> omega
  · rw [hresult hx, hborrow hpol, toNat_ite_one_zero]
    split <;> omega

/-! ## RND -/

/-- RND touches PC, its register and the draw counter. -/
theorem rnd_frame (s : State) (x : Nibble) (b : Byte) :
    SameExcept (· ∈ [.pc, .reg x, .draws]) s (s.advance.countDraw.setV x b) :=
  ((s.setPc_frame _).mono (by simp)).trans
    ((s.advance.countDraw_frame.mono (by simp)).trans ((s.advance.countDraw.setV_frame x b).mono (by simp)))

/-! ## The fetch after a dump -/

/-- What a dump leaves at one address: the register stored there, or the byte that stood there (R210). -/
theorem readByte_ldStore (s : State) (x : Nibble) (w : Word) (a : Nat) :
    (∀ k : Nibble, k.toNat ≤ x.toNat → indexAddr s k.toNat = a →
      ((s.advance.writeBytes s.i.toNat (dumpedBytes s x)).setI w).readByte a = s.getV k) ∧
    (a < s.i.toNat ∨ s.i.toNat + x.toNat < a →
      ((s.advance.writeBytes s.i.toNat (dumpedBytes s x)).setI w).readByte a = s.readByte a) := by
  refine ⟨?_, fun hout => ?_⟩
  · rintro k hk rfl
    exact readByte_writeBytes_dumpedBytes s s.advance hk _
  · refine ldStore_frame s x w (.byte a) ?_
    rintro (hpc | hindex | ⟨k, hk, hbyte⟩)
    · cases hpc
    · cases hindex
    · cases hbyte
      simp only [indexAddr] at hout
      omega

/-! ## The same draw twice -/

theorem State.readBytes_congr_range {s u : State} {base n : Nat}
    (h : ∀ r, r < n → u.readByte (base + r) = s.readByte (base + r)) : u.readBytes base n = s.readBytes base n :=
  List.map_congr_left fun r hr => h r (List.mem_range.mp hr)

/-- A draw inverts the covered pixels, so the same draw on its result inverts them back (R235). -/
theorem drawn_drawn {s u : State} {x y n : Nibble} (hdisp : u.disp = (drawn s x y n).1) (hi : u.i = s.i)
    (hx : u.getV x = s.getV x) (hy : u.getV y = s.getV y)
    (hsprite : ∀ r, r < n.toNat → u.readByte (indexAddr s r) = s.readByte (indexAddr s r)) :
    (drawn u x y n).1 = s.disp := by
  have hrows : u.readBytes u.i.toNat n.toNat = s.readBytes s.i.toNat n.toNat := by
    rw [hi]; exact State.readBytes_congr_range hsprite
  refine Display.ext fun px py => ?_
  rw [pixel_drawn, hrows, hx, hy, hdisp, pixel_drawn, Bool.xor_assoc, Bool.xor_self, Bool.xor_false]

/-- VF after a completed DRW is its collision. -/
theorem getV_drw (s : State) (d : Display) (c : Bool) :
    ((s.advance.setDisp d).setV 0xF (collisionFlag c)).getV 0xF = if c = true then 1 else 0 := by
  rw [State.getV_setV, if_pos rfl, collisionFlag, boolByte]

/-! ## The placed word -/

/-- `withFetchWord` places both bytes of its word inside RAM, at PC and PC + 1 (R66). -/
theorem State.fetch_withFetchWord (s : State) (w : Word) : (s.withFetchWord 16 w.toNat).fetch = .ok w := by
  have hword : BitVec.ofNat 16 (w.toNat % 2 ^ 16) = w := by
    rw [Nat.mod_eq_of_lt w.isLt, BitVec.ofNat_toNat, BitVec.setWidth_eq]
  have hpc : (if s.pc.toNat ≤ 0xFFE then s.pc else 0x200).toNat ≤ 0xFFE := by
    split
    · assumption
    · decide
  simp only [State.withFetchWord, hword]
  rw [State.fetch_eq, State.writeBytes_pc, if_pos hpc]
  simp [State.readByte_writeBytes]

end Sys2Proof.Machine
end

section
/-! The remaining statements, settled. -/

namespace Sys2Proof.Machine

/-- Settles O32, from the results and the flags of the arithmetic statements. -/
theorem flagCompletesTheResult : Obligations.FlagCompletesTheResult := by
  unfold Obligations.FlagCompletesTheResult
  intro s x y hx
  obtain ⟨hsubNotBorrow, hsubBorrow⟩ := subtract_exact hx (exec_sub x y s)
  obtain ⟨hsubnNotBorrow, hsubnBorrow⟩ := subtract_exact hx (exec_subn x y s)
  refine ⟨?_, hsubNotBorrow, hsubnNotBorrow, hsubBorrow, hsubnBorrow, ?_, ?_⟩
  · obtain ⟨-, t, hexec, hflag, hresult, -⟩ := addWithCarryFlagsOverflow s x y
    refine ⟨t, hexec, ?_⟩
    rw [hresult hx, hflag, toNat_ite_one_zero]
    split <;> omega
  · obtain ⟨t, hexec, hflag, hresult, -⟩ := setVThenFlag_spec (exec_shr x y s)
    refine ⟨t, hexec, ?_⟩
    rw [← shiftSource_eq_ite, hresult hx, hflag, toNat_shrFlag, BitVec.toNat_ushiftRight, Nat.shiftRight_one]
    omega
  · obtain ⟨t, hexec, hflag, hresult, -⟩ := setVThenFlag_spec (exec_shl x y s)
    refine ⟨t, hexec, ?_⟩
    rw [← shiftSource_eq_ite, hresult hx, hflag, toNat_shlFlag, BitVec.toNat_shiftLeft, Nat.shiftLeft_eq]
    omega

/-- Settles O36: the entry CALL pushes is the one below the new SP, which RET pops. -/
theorem returnComesBackAfterCall : Obligations.ReturnComesBackAfterCall := by
  unfold Obligations.ReturnComesBackAfterCall
  intro s nnn hroom
  refine ⟨_, exec_call_ok nnn s hroom, fun u hsp hstack => ?_⟩
  have hused : 0 < u.sp.val := by rw [hsp]; exact Nat.succ_pos _
  refine ⟨_, exec_ret_ok u hused, ?_, ?_⟩
  · simp [hsp, hstack]
  · simp [hsp]

/-- Settles O43: the fetch reads both bytes from the RAM the dump leaves. -/
theorem fetchSeesStoredBytes : Obligations.FetchSeesStoredBytes := by
  unfold Obligations.FetchSeesStoredBytes
  intro s x hdump hnext
  have hpc : (s.pc + 2).toNat = s.pc.toNat + 2 := State.toNat_pc_add_two (by omega)
  obtain ⟨hhi, hhiKept⟩ := readByte_ldStore s x (indexAfter s x) (s.pc.toNat + 2)
  obtain ⟨hlo, hloKept⟩ := readByte_ldStore s x (indexAfter s x) (s.pc.toNat + 3)
  refine ⟨_, _, _, exec_ldStore_ok x hdump, ?_, hhi, hhiKept, hlo, hloKept⟩
  rw [State.fetch_eq, State.setI_pc, State.writeBytes_pc, State.advance_pc, hpc, if_pos (by omega)]
  rfl

/-- Settles O46: the second draw inverts the pixels back, and collides where the first one set a pixel. -/
theorem drawingTwiceRestoresTheDisplay : Obligations.DrawingTwiceRestoresTheDisplay := by
  unfold Obligations.DrawingTwiceRestoresTheDisplay
  intro s x y n hin
  refine ⟨_, exec_drw_ok x y n hin, fun u hdisp hi hx hy hsprite => ?_⟩
  have hdrawn : u.disp = (drawn s x y n).1 := hdisp
  have hback : (drawn u x y n).1 = s.disp := drawn_drawn hdrawn hi hx hy hsprite
  have hcollision : (drawn u x y n).2 = true ↔
      ∃ px py, (drawn s x y n).1.pixel px py = true ∧ s.disp.pixel px py = false := by
    rw [drawn_collision_iff, hback, hdrawn]
  refine ⟨_, exec_drw_ok x y n (s := u) (hi ▸ hin), hback, ?_, fun hkept => ?_⟩
  · rintro ⟨px, py, hunset, hset⟩
    rw [getV_drw, if_pos (hcollision.mpr ⟨px, py, hset, hunset⟩)]
  · rw [getV_drw, if_neg]
    intro hcollides
    obtain ⟨px, py, hset, hunset⟩ := hcollision.mp hcollides
    exact Bool.false_ne_true ((hkept px py hunset).symm.trans hset)

/-- Settles O47: the draw is masked, and the counter moves to the next one. -/
theorem randomByteIsMasked : Obligations.RandomByteIsMasked := by
  unfold Obligations.RandomByteIsMasked
  intro s x nn
  have hx : (s.advance.countDraw.setV x (s.draw &&& nn)).getV x = s.draw &&& nn := by simp
  refine ⟨decode_encode (.rnd x nn), _, exec_rnd x nn s, hx, ?_, rfl, rfl, rnd_frame s x _⟩
  rw [hx, BitVec.and_assoc]
  simp

/-- Settles O60: the placed word is fetched and decodes to its instruction, no Fault standing in the way. -/
theorem placedWordIsTheNextInstruction : Obligations.PlacedWordIsTheNextInstruction := by
  unfold Obligations.PlacedWordIsTheNextInstruction
  intro s i
  exact step_exec (State.writeBytes_fault _ _ _) (s.fetch_withFetchWord (encode i)) (decode_encode i)

end Sys2Proof.Machine
end
